-- ==== Sys2Proof/Word.lean ====
section
/-! DEFINITION. The word types: 32-bit registers and commands, bus bytes, and the entries of the four matrix buffers. -/

namespace Sys2Proof

/-- A register of the window, a command word, a COEF or QOUT entry (R24, R40, R41, R100). -/
abbrev Word := BitVec 32

/-- One byte lane of a register (R73). -/
abbrev Byte := BitVec 8

/-- A SAMPLE or DIV entry, 16-bit two's complement (R38, R39). -/
abbrev Half := BitVec 16

/-- A matrix buffer: 64 entries in row-major order (R12). -/
abbrev Matrix (α : Type) := Vector α 64

end Sys2Proof
end

