-- ==== Sys2Proof/Config.lean ====
section
/-! DEFINITION. What the platform fixes and the spec leaves open, and the free values. Nothing here has a body: no proof can see a value. -/

namespace Sys2Proof.Config

/-- The number of the 4 KiB page at which a platform places each instance: a one-to-one map of instance numbers to pages, and nothing
else is known of it (R9, R24: `BASE` is OPEN and 4 KiB aligned; R205: each instance is at its own BASE; log 8). -/
opaque basePage : (Eq : Nat → Nat → Prop) ↪r (Eq : Nat → Nat → Prop)

/-- FREE VALUE. What the `n`-th draw of instance `i` returns to a host read of a location the running command may write (R77; log 3). -/
opaque busyRead : (i n : Nat) → Word

/-- FREE VALUE. SAMPLE[k] after a reset that is the `n`-th draw of instance `i` (R231, R232; log 2). -/
opaque resetSample : (i n : Nat) → Fin 64 → Half

/-- FREE VALUE. COEF[k] after a reset that is the `n`-th draw of instance `i` (R231, R232; log 2). -/
opaque resetCoef : (i n : Nat) → Fin 64 → Word

/-- FREE VALUE. QOUT[k] after a reset that is the `n`-th draw of instance `i` (R231, R232; log 2). -/
opaque resetQout : (i n : Nat) → Fin 64 → Word

end Sys2Proof.Config
end

