-- ==== Sys2Proof/Machine/Agents.lean ====
section
/-! DEFINITION. The agents around the engine as plain data: single bus accesses, the operations of the host notation (R108), and the
turns that say which agent moves next. -/

namespace Sys2Proof.Machine

/-- One access of a bus master, at an absolute byte address, of a size in bytes (R70, R72, R86). -/
inductive Access where
  | read (addr size : Nat)
  | write (addr size : Nat) (w : Word)
  deriving DecidableEq, Repr

/-- An operation of the host notation (R108). Register numbers are those of `t0..t7`; an offset counts from BASE; a label is
named by a number. -/
inductive HostOp where
  /-- `sw off, imm`. -/
  | sw (off : Nat) (imm : Word)
  /-- `sw off, tN`. -/
  | swt (off : Nat) (r : Fin 8)
  /-- `lw tN, off`. -/
  | lw (r : Fin 8) (off : Nat)
  /-- `andi tN, tM, imm`. -/
  | andi (r m : Fin 8) (imm : Word)
  /-- `bnez tN, label`. -/
  | bnez (r : Fin 8) (label : Nat)
  /-- `label:`. -/
  | label (name : Nat)
  /-- `halt`. -/
  | halt
  deriving DecidableEq, Repr

/-- Who moves: the engine (R172), the host's program, another master's single access (R86), or the platform's reset (R230). -/
inductive Turn where
  | engine
  | host
  | bus (a : Access)
  | rst
  deriving DecidableEq, Repr

end Sys2Proof.Machine
end

