-- ==== Sys2Proof/Machine/Rounding.lean ====
section
/-! DEFINITION. The one rounding function of the engine (R11), and the sums of the transform over exact integers (R10). -/

namespace Sys2Proof.Machine

/-- `RoundHAZ(a, b) = sign(a) · floor((2·|a| + b) / (2·b))` for `b > 0` (R11). -/
def roundHAZ (a b : Int) : Int := a.sign * ((2 * (a.natAbs : Int) + b) / (2 * b))

/-- The sum over 0..7. -/
def sum8 (f : Fin 8 → Int) : Int := f 0 + f 1 + f 2 + f 3 + f 4 + f 5 + f 6 + f 7

end Sys2Proof.Machine
end

