-- ==== Sys2Proof/Machine/Operands.lean ====
section
/-! DEFINITION. How a command reads its operands: matrix positions (R12), the declared shape (R104), the level shift (R120), the
divisor scan (R150) and the preset divisor table (R155). -/

namespace Sys2Proof.Machine

/-- The position `k = 8·r + c` of row `r`, column `c` (R12). -/
def idx (r c : Fin 8) : Fin 64 := ⟨8 * r.val + c.val, by omega⟩

/-- The row `k >> 3` of position `k` (R12). -/
def row (k : Fin 64) : Fin 8 := ⟨k.val / 8, by omega⟩

/-- The column `k mod 8` of position `k` (R12). -/
def col (k : Fin 64) : Fin 8 := ⟨k.val % 8, by omega⟩

/-- R104: the declared shape is the 8 × 8 the hardware is built for. -/
def shapeOk (rows cols : BitVec 4) : Bool := rows == 8 && cols == 8

/-- `shift = 1 << (BITS − 1)` (R120). -/
def levelShift (bits : BitVec 5) : Int := 2 ^ (bits.toNat - 1)

/-- `d(x,y) = sext_16(SAMPLE[8x + y]) − shift` (R120). -/
def shifted (sample : Matrix Half) (bits : BitVec 5) (x y : Fin 8) : Int :=
  (sample[idx x y]).toInt - levelShift bits

/-- R150: the smallest `k` with `sext_16(DIV[k]) ≤ 0`, if there is one. -/
def firstBadDivisor (div : Matrix Half) : Option (Fin 64) :=
  (List.finRange 64).find? fun k => decide ((div[k]).toInt ≤ 0)

/-- `RAMP[8i + j] = 3 + 2·(i + j)` (R155). -/
def ramp : Matrix Half :=
  Vector.ofFn fun k : Fin 64 => BitVec.ofNat 16 (3 + 2 * ((row k).val + (col k).val))

end Sys2Proof.Machine
end

