-- ==== Sys2Proof/Syntax.lean ====
section
/-! DEFINITION. The command set QZ-CMD v1, one constructor for each row of the opcode map (R103). -/

namespace Sys2Proof

/-- A command with its operand fields. ROWS and COLS are the declared shape (R101, R104); TBL names a divisor table (R174). -/
inductive Instr where
  /-- No operation (R173). -/
  | nop
  /-- Forward DCT of SAMPLE into COEF (R131). -/
  | fdct (rows cols : BitVec 4)
  /-- Quantization of COEF by DIV into QOUT (R156). -/
  | quant (rows cols : BitVec 4)
  /-- Forward DCT, then quantization, as one command (R175). -/
  | fdctq (rows cols : BitVec 4)
  /-- Load a preset divisor table into DIV (R174). -/
  | lddiv (tbl : BitVec 4)
  deriving DecidableEq, Repr

end Sys2Proof
end

