-- ==== Sys2Proof/Machine/State.lean ====
section
/-! DEFINITION. The state of one engine instance (R21), of the host agent (R108), and the model's own fields; the reasons to stop; reset. -/

namespace Sys2Proof.Machine

/-- All state of one instance. The first group is R21's record; the second is the host agent's of R108; the third is the model's own. -/
structure State where
  /-- CTRL.IE (R26). -/
  ie : Bool
  /-- STATUS.BUSY (R28). -/
  busy : Bool
  /-- STATUS.DONE (R29). -/
  done : Bool
  /-- STATUS.ERR (R30). -/
  err : Bool
  /-- STATUS.OVR (R31). -/
  ovr : Bool
  /-- STATUS.BWE (R32). -/
  bwe : Bool
  /-- CMDLAST, the last accepted word (R33). -/
  cmdlast : Word
  /-- ERRINFO.CODE (R34). -/
  errCode : BitVec 4
  /-- ERRINFO.POS (R34). -/
  errPos : BitVec 6
  /-- ERRINFO.OP (R34). -/
  errOp : BitVec 8
  /-- CFG.BITS (R35). -/
  bits : BitVec 5
  /-- NZMASK (R37). -/
  nzmask : BitVec 64
  /-- SAMPLE (R38). -/
  sample : Matrix Half
  /-- DIV (R39). -/
  div : Matrix Half
  /-- COEF (R40). -/
  coef : Matrix Word
  /-- QOUT (R41). -/
  qout : Matrix Word
  /-- PENDING, the latched command of a busy engine (R43). -/
  pending : Option Word
  /-- `t0..t7` of the host notation (R108). -/
  t : Vector Word 8
  /-- The host's program, in program order (R108). -/
  hostProg : List HostOp
  /-- The place in the host's program (R108). -/
  hostPc : Nat
  /-- The model's own: which agents move next (log 5). -/
  turns : List Turn
  /-- The model's own: how many free values have been drawn (log 4). -/
  draws : Nat
  /-- The model's own: what the last single bus read returned (log 4). -/
  rdata : Word
  /-- The model's own: the number of this instance in its platform, which selects its BASE (log 8). -/
  inst : Nat
  deriving DecidableEq, Repr

/-- Why the machine stops. The device itself never stops (R190: a failing command is a next state). -/
inductive Fault where
  /-- Raised by the engine's turn when BUSY = 1 and nothing is latched. Safe: R43 rules such a state out and no run reaches it (log 11). -/
  | noPendingCommand
  deriving DecidableEq, Repr

/-- What the model does not define. -/
inductive Refusal where
  /-- An instruction without a meaning, by its mnemonic. Raised by no arm of this model. Safe. -/
  | notModelled (mnemonic : String)
  /-- Raised by a host access that is not an aligned 32-bit access: R72 tells a model to refuse it. Safe (log 9). -/
  | accessNotAlignedWord
  /-- Raised by a host access outside the 4 KiB window, which is no access to this device (R24, R70). Safe (log 9). -/
  | outsideWindow
  /-- Raised by the host agent for a branch to a label its program does not hold. Safe (log 7). -/
  | undefinedLabel
  deriving DecidableEq, Repr

/-- The machine right after reset (R231). SAMPLE, COEF and QOUT, which R231 leaves unspecified, are 0 here by the model's choice
(log 1); so are the host agent's registers and program (log 7) and the model's own fields (logs 4, 5, 8). -/
def State.reset : State where
  ie := false
  busy := false
  done := false
  err := false
  ovr := false
  bwe := false
  cmdlast := 0
  errCode := 0
  errPos := 0
  errOp := 0
  bits := 8
  nzmask := 0
  sample := Vector.replicate 64 0
  div := ramp
  coef := Vector.replicate 64 0
  qout := Vector.replicate 64 0
  pending := none
  t := Vector.replicate 8 0
  hostProg := []
  hostPc := 0
  turns := []
  draws := 0
  rdata := 0
  inst := 0

end Sys2Proof.Machine
end

