-- ==== Sys2Proof/Machine/Flags.lean ====
section
/-! DEFINITION. The control and status registers as words (R25 to R37), the flags each event sets or clears (R27 to R32), and the
interrupt output (R44). -/

namespace Sys2Proof.Machine

/-- The constant of the ID register (R25). -/
def idWord : Word := 0x44435438

/-- What a read of CTRL returns (R26, R74). -/
def State.ctrlWord (s : State) : Word := (BitVec.ofBool s.ie).setWidth 32

/-- What a read of STATUS returns: `{BWE, OVR, ERR, DONE, BUSY}` with BUSY at bit 0 (R27, R74). -/
def State.statusWord (s : State) : Word :=
  (BitVec.ofBool s.bwe ++ BitVec.ofBool s.ovr ++ BitVec.ofBool s.err ++ BitVec.ofBool s.done
    ++ BitVec.ofBool s.busy).setWidth 32

/-- What a read of ERRINFO returns: `{OP, 2'b00, POS, 4'b0000, CODE}` (R34, R74). -/
def State.errinfoWord (s : State) : Word :=
  (s.errOp ++ (0 : BitVec 2) ++ s.errPos ++ (0 : BitVec 4) ++ s.errCode).setWidth 32

/-- What a read of CFG returns: `{4'b1000, 3'b000, BITS}`, with NBLK = 8 at bits 11:8 (R35, R36, R74). -/
def State.cfgWord (s : State) : Word := ((8 : BitVec 4) ++ (0 : BitVec 3) ++ s.bits).setWidth 32

/-- The interrupt output `CTRL.IE & STATUS.DONE` (R44, R200). -/
def State.irq (s : State) : Bool := s.ie && s.done

/-- A host write of `w` to CTRL: `CTRL.IE <- w[0]` (R26). -/
def State.writeCtrl (w : Word) (s : State) : State := { s with ie := w.getLsbD 0 }

/-- A host write of `w` to STATUS clears each flag whose bit in `w` is 1; bit 0 is ignored (R27). -/
def State.clearStatus (w : Word) (s : State) : State :=
  { s with
    done := s.done && !w.getLsbD 1
    err := s.err && !w.getLsbD 2
    ovr := s.ovr && !w.getLsbD 3
    bwe := s.bwe && !w.getLsbD 4 }

/-- A CMD write while busy (R31, R171). -/
def State.setOvr (s : State) : State := { s with ovr := true }

/-- A write of SAMPLE, DIV, COEF or CFG while busy (R32, R76). -/
def State.setBwe (s : State) : State := { s with bwe := true }

/-- A legal BITS value, 1 to 16 (R35). -/
def legalBits (b : BitVec 5) : Bool := decide (1 ≤ b.toNat) && decide (b.toNat ≤ 16)

/-- A host write of `w` to CFG while idle: an illegal BITS leaves the field unchanged (R35). -/
def State.writeCfg (w : Word) (s : State) : State :=
  let b : BitVec 5 := w.extractLsb' 0 5
  if legalBits b then { s with bits := b } else s

/-- The positional mask: bit k is 1 exactly when QOUT[k] ≠ 0 (R153). -/
def nzmaskOf (q : Matrix Word) : BitVec 64 :=
  BitVec.ofFnLE fun k : Fin 64 => decide (q[k] ≠ 0)

end Sys2Proof.Machine
end

