-- ==== Sys2Proof/Machine/Ops.lean ====
section
/-! DEFINITION. The shared operations: issue and completion of a command (R170 to R172), failing a command, which is this hardware's
taking of an exception (R196), and the host's accesses to the register window (R70 to R79). -/

namespace Sys2Proof.Machine

/-- Goes on with `f` where an operation answers, and passes a fault or a refusal on. -/
def andThen {α β : Type} (o : Host.Outcome α Fault Refusal) (f : α → Host.Outcome β Fault Refusal) :
    Host.Outcome β Fault Refusal :=
  match o with
  | .next a => f a
  | .fault r => .fault r
  | .refused r => .refused r

/-! ## Issue and completion -/

/-- Acceptance of the word `w`: `PENDING <- w; CMDLAST <- w; STATUS.BUSY <- 1` (R170). -/
def State.accept (w : Word) (s : State) : State :=
  { s with pending := some w, cmdlast := w, busy := true }

/-- A host write of `w` to CMD: acceptance while idle (R170), overrun while busy (R171). -/
def State.issueCommand (w : Word) (s : State) : State :=
  if s.busy then s.setOvr else s.accept w

/-- The end of a successful command: `STATUS.DONE <- 1; STATUS.BUSY <- 0` (R172), with nothing left in PENDING (R43). -/
def State.complete (s : State) : State :=
  { s with done := true, busy := false, pending := none }

/-- The errors a command can raise (R191). -/
inductive CommandError where
  /-- ShapeError (R192). -/
  | shape
  /-- InvalidDivisorError at the smallest offending position (R193). -/
  | divisor (pos : Fin 64)
  /-- IllegalCommand (R194). -/
  | illegal
  deriving DecidableEq, Repr

/-- ERRINFO.CODE of an error (R191). -/
def CommandError.code : CommandError → BitVec 4
  | .shape => 1
  | .divisor _ => 2
  | .illegal => 3

/-- ERRINFO.POS of an error: the offending position of InvalidDivisorError, else 0 (R191, R196). -/
def CommandError.pos : CommandError → BitVec 6
  | .shape => 0
  | .divisor k => BitVec.ofNat 6 k.val
  | .illegal => 0

/-- Failure entry: what `raise E(op, pos)` writes, and nothing else (R196). There is no handler and no return from it (R198). -/
def State.fail (e : CommandError) (op : BitVec 8) (s : State) : State :=
  { s with
    errCode := e.code
    errPos := e.pos
    errOp := op
    err := true
    done := true
    busy := false
    pending := none }

/-- The checks of a command in the order of R195, after decoding: the declared shape, then, where the command divides, the divisors. -/
def shapeError (rows cols : BitVec 4) : Option CommandError :=
  if shapeOk rows cols then none else some .shape

/-- The divisor check (R150). -/
def divisorError (div : Matrix Half) : Option CommandError :=
  (firstBadDivisor div).map .divisor

/-- A command's completion step: the first failing check is raised, or the command's writes are done and it completes (R172). -/
def finish (check : Option CommandError) (op : BitVec 8) (writes : State → State) (s : State) :
    Host.Outcome State Fault Refusal :=
  match check with
  | some e => .next (s.fail e op)
  | none => .next (writes s).complete

/-! ## The register window -/

/-- A register of the window (R24). -/
inductive Loc where
  | id
  | ctrl
  | status
  | cmd
  | errinfo
  | cfg
  | nzmaskLo
  | nzmaskHi
  | sample (k : Fin 64)
  | div (k : Fin 64)
  | coef (k : Fin 64)
  | qout (k : Fin 64)
  /-- Reserved: reads 0, writes ignored (R42). -/
  | reserved
  deriving DecidableEq, Repr

/-- The entry number of an offset within a buffer of 64 entries of 4 bytes (R24). -/
def entry (off : Nat) : Fin 64 := ⟨off / 4 % 64, by omega⟩

/-- The register at byte offset `off` of the window (R24). -/
def locOf (off : Nat) : Loc :=
  if off < 0x100 then
    match off / 4 with
    | 0 => .id
    | 1 => .ctrl
    | 2 => .status
    | 3 => .cmd
    | 4 => .errinfo
    | 5 => .cfg
    | 6 => .nzmaskLo
    | 7 => .nzmaskHi
    | _ => .reserved
  else if off < 0x200 then .sample (entry off)
  else if off < 0x300 then .div (entry off)
  else if off < 0x400 then .coef (entry off)
  else if off < 0x500 then .qout (entry off)
  else .reserved

/-- What a register holds, as an idle device returns it to a read (R74). -/
def State.view (s : State) : Loc → Word
  | .id => idWord
  | .ctrl => s.ctrlWord
  | .status => s.statusWord
  | .cmd => s.cmdlast
  | .errinfo => s.errinfoWord
  | .cfg => s.cfgWord
  | .nzmaskLo => s.nzmask.extractLsb' 0 32
  | .nzmaskHi => s.nzmask.extractLsb' 32 32
  | .sample k => (s.sample[k]).signExtend 32
  | .div k => (s.div[k]).signExtend 32
  | .coef k => s.coef[k]
  | .qout k => s.qout[k]
  | .reserved => 0

/-- The byte that lane `off` of the window carries: bit b of a register travels on lane `b >> 3`, as bit `b mod 8` (R73). -/
def State.viewByte (s : State) (off : Nat) : Byte :=
  (s.view (locOf off)).extractLsb' (8 * (off % 4)) 8

/-- The registers whose read while busy is unspecified (R77). -/
def Loc.openWhileBusy : Loc → Bool
  | .errinfo => true
  | .nzmaskLo => true
  | .nzmaskHi => true
  | .div _ => true
  | .coef _ => true
  | .qout _ => true
  | .id => false
  | .ctrl => false
  | .status => false
  | .cmd => false
  | .cfg => false
  | .sample _ => false
  | .reserved => false

/-- A read of a register (R74, R77). While busy, a register the running command may write returns a fresh free value (log 3). -/
def readLoc (l : Loc) (s : State) : Word × State :=
  if s.busy && l.openWhileBusy then (Config.busyRead s.inst s.draws, { s with draws := s.draws + 1 })
  else (s.view l, s)

/-- A write that is discarded while busy and sets BWE (R32, R76). -/
def State.unlessBusy (s : State) (f : State → State) : State :=
  if s.busy then s.setBwe else f s

/-- A host write of `w` to a register (R71). -/
def writeLoc (l : Loc) (w : Word) (s : State) : State :=
  match l with
  | .ctrl => s.writeCtrl w
  | .status => s.clearStatus w
  | .cmd => s.issueCommand w
  | .cfg => s.unlessBusy fun s => s.writeCfg w
  | .sample k => s.unlessBusy fun s => { s with sample := s.sample.set k (w.setWidth 16) }
  | .div k => s.unlessBusy fun s => { s with div := s.div.set k (w.setWidth 16) }
  | .coef k => s.unlessBusy fun s => { s with coef := s.coef.set k w }
  | .id => s
  | .errinfo => s
  | .nzmaskLo => s
  | .nzmaskHi => s
  | .qout _ => s
  | .reserved => s

/-- The register an access of `size` bytes at offset `off` reaches: only aligned 32-bit accesses inside the window are defined
(R70, R72). -/
def accessLoc (off size : Nat) : Host.Outcome Loc Fault Refusal :=
  if size ≠ 4 ∨ off % 4 ≠ 0 then .refused .accessNotAlignedWord
  else if off < 0x1000 then .next (locOf off)
  else .refused .outsideWindow

/-- `MemRead(BASE + off, size)` (R13, R74). -/
def memRead (off size : Nat) (s : State) : Host.Outcome (Word × State) Fault Refusal :=
  andThen (accessLoc off size) fun l => .next (readLoc l s)

/-- `MemWrite(BASE + off, size, w)` (R13, R71). -/
def memWrite (off size : Nat) (w : Word) (s : State) : Host.Outcome State Fault Refusal :=
  andThen (accessLoc off size) fun l => .next (writeLoc l w s)

end Sys2Proof.Machine
end

