-- ==== Sys2Proof/Machine/Rom.lean ====
section
/-! DEFINITION. The cosine coefficient ROM: its address map (R46), its magnitudes (R47) and its weights (R45). -/

namespace Sys2Proof.Machine

/-- `(J(k,n), S(k,n))`: the angle index in 1..7 and the sign of frequency `k` at position `n` (R46). -/
def angle (k n : Fin 8) : Nat × Int :=
  if k = 0 then (4, 1)
  else
    let m := ((2 * n.val + 1) * k.val) % 32
    if m < 8 then (m, 1)
    else if m < 16 then (16 - m, -1)
    else if m < 24 then (m - 16, -1)
    else (32 - m, 1)

/-- The table of R47, row by row: `P[i][j]` for i, j in 1..7. -/
def magnitudeRows : List (List Int) :=
  [ [258218740, 243236734, 218907277, 186165337, 146269166, 100751954, 51362901],
    [243236734, 229123994, 206206146, 175363913, 137782542, 94906266, 48382795],
    [218907277, 206206146, 185580629, 157823352, 124001012, 85413382, 43543365],
    [186165337, 175363913, 157823352, 134217728, 105454192, 72638111, 37030588],
    [146269166, 137782542, 124001012, 105454192, 82854827, 57071398, 29094746],
    [100751954, 94906266, 85413382, 72638111, 57071398, 39311462, 20040810],
    [51362901, 48382795, 43543365, 37030588, 29094746, 20040810, 10216716] ]

/-- `P[i][j]` for i, j in 1..7 (R47); 0 outside that range, which no address of R46 reaches. -/
def magnitude (i j : Nat) : Int :=
  if i = 0 ∨ j = 0 then 0 else (magnitudeRows.getD (i - 1) []).getD (j - 1) 0

/-- `W(u,v,x,y) = S(u,x)·S(v,y)·P[J(u,x)][J(v,y)]` (R46). -/
def rom (u v x y : Fin 8) : Int :=
  (angle u x).2 * (angle v y).2 * magnitude (angle u x).1 (angle v y).1

end Sys2Proof.Machine
end

