-- ==== Sys2Proof/Machine/ForwardDct.lean ====
section
/-! DEFINITION. The forward transform by its architectural rule (R121) and the command FDCT (R131). -/

namespace Sys2Proof.Machine

/-- `acc(u,v) = Σx Σy d(x,y) · W(u,v,x,y)`, an exact integer (R121). -/
def directSum (d : Fin 8 → Fin 8 → Int) (u v : Fin 8) : Int :=
  sum8 fun x => sum8 fun y => d x y * rom u v x y

/-- `C(u,v) = RoundHAZ(acc(u,v), 2^30)` (R121). -/
def coefficient (d : Fin 8 → Fin 8 → Int) (u v : Fin 8) : Int :=
  roundHAZ (directSum d u v) (2 ^ 30)

/-- The coefficient matrix of a sample matrix: `COEF[8u + v] <- trunc_32(C(u,v))` (R121). -/
def forwardDct (sample : Matrix Half) (bits : BitVec 5) : Matrix Word :=
  Vector.ofFn fun k : Fin 64 => BitVec.ofInt 32 (coefficient (shifted sample bits) (row k) (col k))

/-- FDCT (R131). -/
def execFdct (rows cols : BitVec 4) (s : State) : Host.Outcome State Fault Refusal :=
  finish (shapeError rows cols) 0x01
    (fun s => { s with coef := forwardDct s.sample s.bits }) s

end Sys2Proof.Machine
end

