-- ==== Sys2Proof/Machine/Quantizer.lean ====
section
/-! DEFINITION. The quantization divider with its positional mask (R150 to R153) and the command QUANT (R156). -/

namespace Sys2Proof.Machine

/-- One lane: `RoundHAZ(sext_32(COEF[k]), sext_16(DIV[k]))` (R152). -/
def quantLane (c : Word) (q : Half) : Word := BitVec.ofInt 32 (roundHAZ c.toInt q.toInt)

/-- The quantized matrix, each position from the entries at that position alone (R151, R152). -/
def quantize (coef : Matrix Word) (div : Matrix Half) : Matrix Word :=
  Vector.ofFn fun k : Fin 64 => quantLane coef[k] div[k]

/-- The writes of the quantizer: QOUT, then NZMASK (R152, R153). -/
def State.quantized (s : State) : State :=
  { s with qout := quantize s.coef s.div, nzmask := nzmaskOf (quantize s.coef s.div) }

/-- QUANT (R156). -/
def execQuant (rows cols : BitVec 4) (s : State) : Host.Outcome State Fault Refusal :=
  finish ((shapeError rows cols).or (divisorError s.div)) 0x02 State.quantized s

end Sys2Proof.Machine
end

