-- ==== Sys2Proof/Machine/Control.lean ====
section
/-! DEFINITION. The commands NOP (R173), LDDIV (R174) and the fused FDCTQ (R175). -/

namespace Sys2Proof.Machine

/-- NOP (R173). -/
def execNop (s : State) : Host.Outcome State Fault Refusal := finish none 0x00 id s

/-- LDDIV: table 0 is the ramp; the tables 1..15 are IllegalCommand (R174, R106). -/
def execLddiv (tbl : BitVec 4) (s : State) : Host.Outcome State Fault Refusal :=
  finish (if tbl = 0 then none else some .illegal) 0x04 (fun s => { s with div := ramp }) s

/-- FDCTQ: every check before any write; the quantizer divides the new, rounded COEF (R175, R158). -/
def execFdctq (rows cols : BitVec 4) (s : State) : Host.Outcome State Fault Refusal :=
  finish ((shapeError rows cols).or (divisorError s.div)) 0x03
    (fun s => State.quantized { s with coef := forwardDct s.sample s.bits }) s

end Sys2Proof.Machine
end

