-- ==== Sys2Proof/Machine/Dispatch.lean ====
section
/-! DEFINITION. One arm for each command: its completion step (R172). -/

namespace Sys2Proof.Machine

def exec (i : Instr) (s : State) : Host.Outcome State Fault Refusal :=
  match i with
  | .nop => Sys2Proof.Machine.execNop s
  | .fdct rows cols => Sys2Proof.Machine.execFdct rows cols s
  | .quant rows cols => Sys2Proof.Machine.execQuant rows cols s
  | .fdctq rows cols => Sys2Proof.Machine.execFdctq rows cols s
  | .lddiv tbl => Sys2Proof.Machine.execLddiv tbl s

end Sys2Proof.Machine
end

