-- ==== Sys2Proof/WellFormed.lean ====
section
/-! DEFINITION. Which instructions have a command word of their own in the opcode map. -/

namespace Sys2Proof

/-- R105, R106: LDDIV with a table 1..15 matches no row of the opcode map. Every declared shape is legal as a word (R104), so the
other commands have nothing to check. -/
def Instr.wellFormed : Instr → Bool
  | .nop => true
  | .fdct _ _ => true
  | .quant _ _ => true
  | .fdctq _ _ => true
  | .lddiv tbl => tbl == 0

end Sys2Proof
end

