-- ==== Sys2Proof/Decode.lean ====
section
/-! DEFINITION. The decoder of command words (R100 to R107), total and rejecting by name, and after it the encoder. -/

namespace Sys2Proof

/-! The fields of a command word (R100, R101). -/

/-- `OP = w[7:0]`. -/
def fieldOp (w : Word) : BitVec 8 := w.extractLsb' 0 8

/-- `ROWS = w[11:8]`. -/
def fieldRows (w : Word) : BitVec 4 := w.extractLsb' 8 4

/-- `COLS = w[15:12]`. -/
def fieldCols (w : Word) : BitVec 4 := w.extractLsb' 12 4

/-- `TBL = w[19:16]`. -/
def fieldTbl (w : Word) : BitVec 4 := w.extractLsb' 16 4

/-- `RSV = w[31:20]`. -/
def fieldRsv (w : Word) : BitVec 12 := w.extractLsb' 20 12

/-- Why a word is no command: the cases of R105, and a byte sequence shorter than the one format of R100. -/
inductive DecodeError where
  /-- OP in 0x05..0xFF. -/
  | reservedOpcode
  /-- RSV is not 0. -/
  | reservedBits
  /-- TBL is not 0 with OP in 0x00..0x03. -/
  | tableNotAllowed
  /-- ROWS or COLS is not 0 with OP 0x00 or 0x04. -/
  | shapeNotAllowed
  /-- TBL in 1..15 with OP 0x04 (R106). -/
  | reservedTable
  /-- Fewer than four bytes (R100: the format is 32 bits long). -/
  | truncated
  deriving DecidableEq, Repr

/-- A row of the opcode map: a word matches when `(w & mask) = match` (R103). -/
structure OpcodeRow where
  matchWord : Word
  mask : Word
  build : Word → Instr

/-- The opcode map of R103, row by row. -/
def opcodeMap : List OpcodeRow :=
  [ ⟨0x00000000, 0xFFFFFFFF, fun _ => .nop⟩,
    ⟨0x00000001, 0xFFFF00FF, fun w => .fdct (fieldRows w) (fieldCols w)⟩,
    ⟨0x00000002, 0xFFFF00FF, fun w => .quant (fieldRows w) (fieldCols w)⟩,
    ⟨0x00000003, 0xFFFF00FF, fun w => .fdctq (fieldRows w) (fieldCols w)⟩,
    ⟨0x00000004, 0xFFFFFFFF, fun w => .lddiv (fieldTbl w)⟩ ]

/-- The name of the case of R105 that makes a word illegal, for a word no row matches. The device itself reports only
IllegalCommand (R194), whichever case it is. -/
def illegalReason (w : Word) : DecodeError :=
  if fieldRsv w ≠ 0 then .reservedBits
  else if 4 < (fieldOp w).toNat then .reservedOpcode
  else if fieldOp w = 4 then
    if fieldTbl w ≠ 0 then .reservedTable else .shapeNotAllowed
  else if fieldTbl w ≠ 0 then .tableNotAllowed
  else .shapeNotAllowed

/-- R103: a word decodes exactly when it matches a row. -/
def decode (w : Word) : Except DecodeError Instr :=
  match opcodeMap.find? fun r => w &&& r.mask == r.matchWord with
  | some r => .ok (r.build w)
  | none => .error (illegalReason w)

/-- The word that four byte lanes carry, lane 0 first: the window is little-endian (R73). -/
def wordOfLanes (b0 b1 b2 b3 : Byte) : Word := b3 ++ b2 ++ b1 ++ b0

/-- The decoder over bytes as they travel on the lanes, answering the bytes that are left. -/
def decodeBytes : List Byte → Except DecodeError (Instr × List Byte)
  | b0 :: b1 :: b2 :: b3 :: rest => (decode (wordOfLanes b0 b1 b2 b3)).map fun i => (i, rest)
  | _ => .error .truncated

/-- The instruction the decoder reads from the word `w` of `nbits` bits, numbered as the opcode table numbers them. -/
def decodeTableWord (nbits w : Nat) : Option Instr :=
  match decode (BitVec.ofNat 32 (w % 2 ^ nbits)) with
  | .ok i => some i
  | .error _ => none

/-- The command word of an instruction: the encodings of R102. -/
def encode : Instr → Word
  | .nop => 0x00000000
  | .fdct rows cols => 0x00000001 ||| (rows.setWidth 32 <<< 8) ||| (cols.setWidth 32 <<< 12)
  | .quant rows cols => 0x00000002 ||| (rows.setWidth 32 <<< 8) ||| (cols.setWidth 32 <<< 12)
  | .fdctq rows cols => 0x00000003 ||| (rows.setWidth 32 <<< 8) ||| (cols.setWidth 32 <<< 12)
  | .lddiv tbl => 0x00000004 ||| (tbl.setWidth 32 <<< 16)

end Sys2Proof
end

