-- ==== Sys2Proof/Machine/HostAgent.lean ====
section
/-! DEFINITION. The host agent: single bus accesses at absolute addresses (R70, R86), the operations of the host notation (R108), and
its pseudo-instructions (R109). -/

namespace Sys2Proof.Machine

/-- `BASE` of this instance, 4 KiB aligned, and its own (R9, R24, R205). -/
def State.base (s : State) : Nat := 0x1000 * Config.basePage s.inst

/-- The offset of an address from BASE, where it does not lie below BASE. -/
def State.offsetOf (s : State) (addr : Nat) : Host.Outcome Nat Fault Refusal :=
  if s.base ≤ addr then .next (addr - s.base) else .refused .outsideWindow

/-- A single access of a bus master. A read's value is kept in the model's own `rdata`. -/
def busAccess (a : Access) (s : State) : Host.Outcome State Fault Refusal :=
  match a with
  | .read addr size =>
    andThen (s.offsetOf addr) fun off =>
      andThen (memRead off size s) fun r => .next { r.2 with rdata := r.1 }
  | .write addr size w => andThen (s.offsetOf addr) fun off => memWrite off size w s

/-- The host goes on with its next operation, in program order (R108). -/
def State.advanceHost (s : State) : State := { s with hostPc := s.hostPc + 1 }

/-- The host writes one of its scratch registers (R108). -/
def State.setT (r : Fin 8) (w : Word) (s : State) : State := { s with t := s.t.set r w }

/-- The place of a label in a host program (R108). -/
def labelPlace (prog : List HostOp) (l : Nat) : Option Nat := prog.idxOf? (.label l)

/-- One operation of the host notation (R108). -/
def hostOp (op : HostOp) (s : State) : Host.Outcome State Fault Refusal :=
  match op with
  | .sw off imm => andThen (memWrite off 4 imm s) fun s' => .next s'.advanceHost
  | .swt off r => andThen (memWrite off 4 s.t[r] s) fun s' => .next s'.advanceHost
  | .lw r off => andThen (memRead off 4 s) fun p => .next (p.2.setT r p.1).advanceHost
  | .andi r m imm => .next (s.setT r (s.t[m] &&& imm)).advanceHost
  | .bnez r l =>
    match labelPlace s.hostProg l with
    | none => .refused .undefinedLabel
    | some place => .next (if s.t[r] ≠ 0 then { s with hostPc := place } else s.advanceHost)
  | .label _ => .next s.advanceHost
  | .halt => .next s

/-- The host's turn: the operation at its place in the program. Past the end of the program it does nothing, as after `halt`. -/
def hostTurn (s : State) : Host.Outcome State Fault Refusal :=
  match s.hostProg[s.hostPc]? with
  | some op => hostOp op s
  | none => .next s

/-! ## The assembler's operand ranges (R102) and the pseudo-instructions (R109) -/

/-- An operand of a 4-bit field: an assembler rejects a value outside 0..15 (R102). -/
def asmField (n : Nat) : Option (BitVec 4) := if n < 16 then some (BitVec.ofNat 4 n) else none

/-- `FDCT rows, cols` as an assembler reads it (R102). -/
def asmFdct (rows cols : Nat) : Option Word := do return encode (.fdct (← asmField rows) (← asmField cols))

/-- `QUANT rows, cols` as an assembler reads it (R102). -/
def asmQuant (rows cols : Nat) : Option Word := do return encode (.quant (← asmField rows) (← asmField cols))

/-- `FDCTQ rows, cols` as an assembler reads it (R102). -/
def asmFdctq (rows cols : Nat) : Option Word := do return encode (.fdctq (← asmField rows) (← asmField cols))

/-- `LDDIV tbl` as an assembler reads it (R102). -/
def asmLddiv (tbl : Nat) : Option Word := do return encode (.lddiv (← asmField tbl))

/-- `cmd X`. -/
def pseudoCmd (i : Instr) : List HostOp := [.sw 0x00C (encode i)]

/-- `wait`, with the label that is unique to this use. -/
def pseudoWait (l : Nat) : List HostOp := [.label l, .lw 7 0x008, .andi 7 7 1, .bnez 7 l]

/-- `clrst`. -/
def pseudoClrst : List HostOp := [.sw 0x008 0x0000001E]

/-- `setbits n`. -/
def pseudoSetbits (n : Word) : List HostOp := [.sw 0x014 n]

/-- A load of a whole buffer at offset `off`, entry by entry. -/
def pseudoLoad (off : Nat) (m : Matrix Word) : List HostOp :=
  (List.finRange 64).map fun k => .sw (off + 4 * k.val) m[k]

/-- `ldsmp a0, ..., a63`. -/
def pseudoLdsmp (m : Matrix Word) : List HostOp := pseudoLoad 0x100 m

/-- `ldsmp.fill a`. -/
def pseudoLdsmpFill (a : Word) : List HostOp := pseudoLdsmp (Vector.replicate 64 a)

/-- `lddivm q0, ..., q63`. -/
def pseudoLddivm (m : Matrix Word) : List HostOp := pseudoLoad 0x200 m

/-- `ldcoef c0, ..., c63`. -/
def pseudoLdcoef (m : Matrix Word) : List HostOp := pseudoLoad 0x300 m

/-- `ldcoef.fill c`. -/
def pseudoLdcoefFill (c : Word) : List HostOp := pseudoLdcoef (Vector.replicate 64 c)

end Sys2Proof.Machine
end

