-- ==== Sys2Proof/Machine/Engine.lean ====
section
/-! DEFINITION. The engine's turn (R172), the platform's reset (R230 to R232), and which agent moves next. -/

namespace Sys2Proof.Machine

/-- The completion step of the word in PENDING: it decodes, and an illegal word fails with `OP = w[7:0]` (R172, R105, R194). -/
def completeWord (w : Word) (s : State) : Host.Outcome State Fault Refusal :=
  match decode w with
  | .ok i => exec i s
  | .error _ => .next (s.fail .illegal (fieldOp w))

/-- The engine's turn: enabled exactly while BUSY = 1 (R172); an idle engine keeps all state (R207). -/
def engineTurn (s : State) : Host.Outcome State Fault Refusal :=
  if s.busy then
    match s.pending with
    | some w => completeWord w s
    | none => .fault .noPendingCommand
  else .next s

/-- A reset by the platform, asserted and released (R230 to R232): the values of R231, and free values where it says unspecified
(log 2). The host agent and the model's own fields are outside the device (log 10). -/
def State.rst (s : State) : State :=
  { State.reset with
    sample := Vector.ofFn (Config.resetSample s.inst s.draws)
    coef := Vector.ofFn (Config.resetCoef s.inst s.draws)
    qout := Vector.ofFn (Config.resetQout s.inst s.draws)
    t := s.t
    hostProg := s.hostProg
    hostPc := s.hostPc
    turns := s.turns
    draws := s.draws + 1
    rdata := s.rdata
    inst := s.inst }

/-- One move of an agent. -/
def takeTurn (a : Turn) (s : State) : Host.Outcome State Fault Refusal :=
  match a with
  | .engine => engineTurn s
  | .host => hostTurn s
  | .bus acc => busAccess acc s
  | .rst => .next s.rst

/-- Who moves next: the first of the turns still to come. With none left a busy engine moves, else the host (log 5). -/
def State.nextTurn (s : State) : Turn :=
  match s.turns with
  | a :: _ => a
  | [] => if s.busy then .engine else .host

/-- The state in which that agent moves: its turn is taken off the list. -/
def State.popTurn (s : State) : State := { s with turns := s.turns.tail }

/-- One step of the machine. -/
def nextStep (s : State) : Host.Outcome State Fault Refusal := takeTurn s.nextTurn s.popTurn

/-- The command word `w` accepted as R170 says, with the engine to move next. -/
def State.withCommand (w : Word) (s : State) : State :=
  { s.accept w with turns := .engine :: s.turns }

end Sys2Proof.Machine
end

