-- ==== Sys2Proof/Machine/Step.lean ====
section
/-! DEFINITION. The step, and how a command word is placed where the next step runs it. -/

namespace Sys2Proof.Machine

/-- One step: the next agent's move, one access or one completion, never less (R70, R172). -/
def step (s : State) : Host.Outcome State Fault Refusal := Sys2Proof.Machine.nextStep s

/-- The engine fetches nothing (R82): a command reaches it by acceptance of a CMD write. So this is the state after the acceptance of
the word (R170), with the completion step next (log 6). -/
def State.withFetchWord (s : State) (nbits w : Nat) : State :=
  s.withCommand (BitVec.ofNat 32 (w % 2 ^ nbits))

end Sys2Proof.Machine
end

