-- ==== Sys2Proof/Formula.lean ====
section
/-! DEFINITION. The real-valued formula that the engine approximates (R14), for the statements about distance and exactness (R45, R122).
No definition of the machine uses it. -/

namespace Sys2Proof.Formula

open Sys2Proof.Machine

/-- `α(k) = 1/√2` when `k = 0`, and 1 otherwise (R14). -/
noncomputable def alpha (k : Fin 8) : ℝ := if k = 0 then 1 / √2 else 1

/-- The basis product `α(u)·α(v)/4 · cos((2x+1)uπ/16) · cos((2y+1)vπ/16)` (R14, R45). -/
noncomputable def basis (u v x y : Fin 8) : ℝ :=
  alpha u * alpha v / 4 * Real.cos ((2 * (x.val : ℝ) + 1) * (u.val : ℝ) * Real.pi / 16)
    * Real.cos ((2 * (y.val : ℝ) + 1) * (v.val : ℝ) * Real.pi / 16)

/-- `C*(u,v)`, the real value of the formula before rounding, over level-shifted samples (R14, R122). -/
noncomputable def realDct (d : Fin 8 → Fin 8 → Int) (u v : Fin 8) : ℝ :=
  ∑ x : Fin 8, ∑ y : Fin 8, (d x y : ℝ) * basis u v x y

end Sys2Proof.Formula
end

