-- ==== Sys2Proof/Machine/Butterfly.lean ====
section
/-! DEFINITION. The engine's datapath stage by stage at the widths the spec gives it (R120, R123 to R127, R129): level shift, two fold
stages, 16 multipliers, a 64-bit adder tree, the rounding unit. Its result is architectural only through R121; R128 says they agree. -/

namespace Sys2Proof.Machine

/-- The mirrored position `7 − n`. -/
def mirror (n : Fin 8) : Fin 8 := ⟨7 - n.val, by omega⟩

/-- A position of the lower half, 0..3, as a position 0..7. -/
def lower (n : Fin 4) : Fin 8 := ⟨n.val, by omega⟩

/-- The level-shifted sample, 18 bits signed (R120). -/
def shiftStage (sample : Matrix Half) (bits : BitVec 5) (x y : Fin 8) : BitVec 18 :=
  (sample[idx x y]).signExtend 18 - ((1 : BitVec 18) <<< (bits.toNat - 1))

/-- Stage 1, the row fold, 19 bits signed: `a_p(x,y) = d(x,y) ± d(7−x,y)`, a sum for parity 0 (R123). `p` is the parity bit. -/
def rowFold (d : Fin 8 → Fin 8 → BitVec 18) (p : Bool) (x : Fin 4) (y : Fin 8) : BitVec 19 :=
  if p then (d (lower x) y).signExtend 19 - (d (mirror (lower x)) y).signExtend 19
  else (d (lower x) y).signExtend 19 + (d (mirror (lower x)) y).signExtend 19

/-- Stage 2, the column fold, 20 bits signed: `e_{p,q}(x,y) = a_p(x,y) ± a_p(x,7−y)` (R124). -/
def colFold (d : Fin 8 → Fin 8 → BitVec 18) (p q : Bool) (x y : Fin 4) : BitVec 20 :=
  if q then (rowFold d p x (lower y)).signExtend 20 - (rowFold d p x (mirror (lower y))).signExtend 20
  else (rowFold d p x (lower y)).signExtend 20 + (rowFold d p x (mirror (lower y))).signExtend 20

/-- The parity `k mod 2` of a frequency, as a bit (R125). -/
def parity (k : Fin 8) : Bool := k.val % 2 == 1

/-- One of the 16 multipliers, 47 bits signed: `m(x,y) = e_{p,q}(x,y) · W(u,v,x,y)` (R125). The ROM word is 32 bits (R45). -/
def multiplier (d : Fin 8 → Fin 8 → BitVec 18) (u v : Fin 8) (x y : Fin 4) : BitVec 47 :=
  (colFold d (parity u) (parity v) x y).signExtend 47
    * (BitVec.ofInt 32 (rom u v (lower x) (lower y))).signExtend 47

/-- A level-2 node of the adder tree: the four products of one row, in 64 bits (R127). -/
def treeRow (d : Fin 8 → Fin 8 → BitVec 18) (u v : Fin 8) (x : Fin 4) : BitVec 64 :=
  ((multiplier d u v x 0).signExtend 64 + (multiplier d u v x 1).signExtend 64)
    + ((multiplier d u v x 2).signExtend 64 + (multiplier d u v x 3).signExtend 64)

/-- The adder tree, 16 → 8 → 4 → 2 → 1, in 64 bits (R127). -/
def adderTree (d : Fin 8 → Fin 8 → BitVec 18) (u v : Fin 8) : BitVec 64 :=
  (treeRow d u v 0 + treeRow d u v 1) + (treeRow d u v 2 + treeRow d u v 3)

/-- The rounding unit on an exact accumulator: `mag = (|acc| + 2^29) >> 30`, with the sign of `acc` (R129). -/
def roundingUnit (acc : Int) : Int :=
  let mag : Int := ((acc.natAbs + 2 ^ 29) >>> 30 : Nat)
  if 0 ≤ acc then mag else -mag

/-- One output of the datapath, as the 32-bit word stored in COEF. -/
def datapathCoefficient (sample : Matrix Half) (bits : BitVec 5) (u v : Fin 8) : Word :=
  BitVec.ofInt 32 (roundingUnit (adderTree (shiftStage sample bits) u v).toInt)

/-- The coefficient matrix the datapath computes. -/
def butterflyDct (sample : Matrix Half) (bits : BitVec 5) : Matrix Word :=
  Vector.ofFn fun k : Fin 64 => datapathCoefficient sample bits (row k) (col k)

end Sys2Proof.Machine
end

