-- ==== Sys2Proof/Machine/System.lean ====
section
/-! DEFINITION. A platform with any number of instances, each with a complete State of its own and nothing shared (R205). -/

namespace Sys2Proof.Machine

/-- The instances of a platform, by number (R205, `N_INST` of R9). -/
structure System where
  instances : List State
  deriving DecidableEq, Repr

/-- `n` instances after power-on, each with its own number, idle, and reset (R205, R230): the contents that R231 leaves unspecified are
free values of that instance (log 2). -/
def System.reset (n : Nat) : System :=
  ⟨(List.range n).map fun k => State.rst { State.reset with inst := k }⟩

/-- Every instance carries its own number, so no two have one BASE (R205). -/
def System.Numbered (p : System) : Prop := ∀ (k : Nat) (s : State), p.instances[k]? = some s → s.inst = k

/-- A step of the platform: instance `k` steps; where there is none, nothing moves. -/
def System.stepAt (k : Nat) (p : System) : Host.Outcome System Fault Refusal :=
  match p.instances[k]? with
  | none => .next p
  | some s => andThen (step s) fun s' => .next ⟨p.instances.set k s'⟩

end Sys2Proof.Machine
end

