-- ==== Sys2Proof/Safety.lean ====
section
/-! DEFINITION. What a safe run is, in the terms the statements use: the invariant every step keeps, the accesses that are defined, and
the write a step performs. -/

namespace Sys2Proof.Machine

/-- What holds in every state that a run reaches, and every step keeps. -/
structure State.Inv (s : State) : Prop where
  /-- BUSY is 1 exactly while a command is latched (R28, R43). -/
  busy_pending : s.busy = s.pending.isSome
  /-- The latched word is the last accepted one (R33, R170). -/
  cmdlast_pending : ∀ w, s.pending = some w → s.cmdlast = w
  /-- CFG.BITS is 1..16 (R35). -/
  bits_legal : legalBits s.bits = true
  /-- ERRINFO.CODE 4..15 is never written (R191). -/
  code_defined : s.errCode.toNat ≤ 3
  /-- ERRINFO.POS is 0 unless CODE = 2 (R34). -/
  pos_of_divisor : s.errPos ≠ 0 → s.errCode = 2
  /-- ERRINFO.OP is 0 while no command has failed since reset (R34). -/
  op_of_failure : s.errCode = 0 → s.errOp = 0
  /-- STATUS.ERR says that some command failed (R30, R196). -/
  err_recorded : s.err = true → s.errCode ≠ 0
  /-- ShapeError is raised by FDCT, QUANT and FDCTQ only (R191). -/
  shape_raisedBy : s.errCode = 1 → s.errOp = 1 ∨ s.errOp = 2 ∨ s.errOp = 3
  /-- InvalidDivisorError is raised by QUANT and FDCTQ only (R191). -/
  divisor_raisedBy : s.errCode = 2 → s.errOp = 2 ∨ s.errOp = 3

/-- An aligned offset inside the window (R70, R72). -/
def offsetOk (off : Nat) : Bool := off % 4 == 0 && decide (off < 0x1000)

/-- A host operation the model does not refuse: a defined access, or a branch to a label of the program. -/
def HostOp.ok (prog : List HostOp) : HostOp → Bool
  | .sw off _ => offsetOk off
  | .swt off _ => offsetOk off
  | .lw _ off => offsetOk off
  | .andi _ _ _ => true
  | .bnez _ l => (labelPlace prog l).isSome
  | .label _ => true
  | .halt => true

/-- A single access that is an aligned 32-bit access inside the window at `base`. -/
def Access.ok (base : Nat) : Access → Prop
  | .read addr size => base ≤ addr ∧ size = 4 ∧ offsetOk (addr - base) = true
  | .write addr size _ => base ≤ addr ∧ size = 4 ∧ offsetOk (addr - base) = true

/-- A turn whose access, if it is one, is defined. -/
def Turn.ok (base : Nat) : Turn → Prop
  | .engine => True
  | .host => True
  | .bus a => a.ok base
  | .rst => True

/-- Every access still to come, of the host's program and of the other masters, is defined. -/
structure State.AccessesOk (s : State) : Prop where
  host : ∀ op ∈ s.hostProg, op.ok s.hostProg = true
  turns : ∀ a ∈ s.turns, a.ok s.base

/-- The offset and the word of the host write that the next step performs, if it is one. -/
def State.nextWrite (s : State) : Option (Nat × Word) :=
  match s.nextTurn with
  | .engine => none
  | .rst => none
  | .bus (.read _ _) => none
  | .bus (.write addr _ w) => if s.base ≤ addr then some (addr - s.base, w) else none
  | .host =>
    match s.hostProg[s.hostPc]? with
    | some (.sw off imm) => some (off, imm)
    | some (.swt off r) => some (off, s.t[r])
    | some (.lw _ _) => none
    | some (.andi _ _ _) => none
    | some (.bnez _ _) => none
    | some (.label _) => none
    | some .halt => none
    | none => none

/-- `k` steps, stopping at the first fault or refusal. -/
def runSteps : Nat → State → Host.Outcome State Fault Refusal
  | 0, s => .next s
  | k + 1, s => andThen (step s) (runSteps k)

/-- The offsets of the buffers and the mask that a command writes on success (R42). -/
def outputOffset (i : Instr) (off : Nat) : Bool :=
  let inCoef := decide (0x300 ≤ off) && decide (off < 0x400)
  let inQout := decide (0x400 ≤ off) && decide (off < 0x500)
  let inMask := decide (0x018 ≤ off) && decide (off < 0x020)
  match i with
  | .nop => false
  | .fdct _ _ => inCoef
  | .quant _ _ => inQout || inMask
  | .fdctq _ _ => inCoef || inQout || inMask
  | .lddiv _ => decide (0x200 ≤ off) && decide (off < 0x300)

/-- The offsets of STATUS. -/
def statusOffset (off : Nat) : Bool := decide (0x008 ≤ off) && decide (off < 0x00C)

/-- The offsets of ERRINFO. -/
def errinfoOffset (off : Nat) : Bool := decide (0x010 ≤ off) && decide (off < 0x014)

end Sys2Proof.Machine
end

