-- ==== Sys2Proof/Certificates/Slice0/Obligations.lean ====
section
/-! DEFINITION. The statements about this machine, for the provers: each says which rule of spec/ it formalises or rests on. -/

open Sys2Proof Sys2Proof.Machine

/-! ## Encoding -/

/-- R103: a word decodes to a row's instruction exactly when `(w & mask) = match`, its operands are the free fields of R101, and no
two rows match the same word. -/
def Obligations.OpcodeMapDecodesExactly : Prop :=
  ∀ w : Word,
    (decode w = .ok .nop ↔ w &&& 0xFFFFFFFF = 0x00000000) ∧
    (∀ r c : BitVec 4, decode w = .ok (.fdct r c) ↔
      w &&& 0xFFFF00FF = 0x00000001 ∧ w.extractLsb' 8 4 = r ∧ w.extractLsb' 12 4 = c) ∧
    (∀ r c : BitVec 4, decode w = .ok (.quant r c) ↔
      w &&& 0xFFFF00FF = 0x00000002 ∧ w.extractLsb' 8 4 = r ∧ w.extractLsb' 12 4 = c) ∧
    (∀ r c : BitVec 4, decode w = .ok (.fdctq r c) ↔
      w &&& 0xFFFF00FF = 0x00000003 ∧ w.extractLsb' 8 4 = r ∧ w.extractLsb' 12 4 = c) ∧
    (∀ tbl : BitVec 4, decode w = .ok (.lddiv tbl) ↔ w &&& 0xFFFFFFFF = 0x00000004 ∧ tbl = 0) ∧
    opcodeMap.Pairwise fun a b => ¬(w &&& a.mask = a.matchWord ∧ w &&& b.mask = b.matchWord)

/-- R100 to R103: decoding the word of a well-formed command gives it back, with every operand. -/
def Obligations.DecodeOfEncode : Prop :=
  ∀ i : Instr, i.wellFormed = true → decode (encode i) = .ok i

/-- R100 to R103: each word has one meaning: a word that decodes is the word of the command it decodes to, which is well formed. -/
def Obligations.EncodeOfDecode : Prop :=
  ∀ (w : Word) (i : Instr), decode w = .ok i → i.wellFormed = true ∧ encode i = w

/-- R102: the canonical words, and words of other shapes (95_test_vectors V-E1, V-E2, V-E7), decode as the table says. -/
def Obligations.CanonicalWordsDecode : Prop :=
  decode 0x00000000 = .ok .nop ∧
  decode 0x00008801 = .ok (.fdct 8 8) ∧
  decode 0x00007701 = .ok (.fdct 7 7) ∧
  decode 0x00008001 = .ok (.fdct 0 8) ∧
  decode 0x00008802 = .ok (.quant 8 8) ∧
  decode 0x00008702 = .ok (.quant 7 8) ∧
  decode 0x00008803 = .ok (.fdctq 8 8) ∧
  decode 0x00000004 = .ok (.lddiv 0)

/-- R105: the illegal words are exactly the listed cases; the engine accepts one like any other command, and its completion fails it
with IllegalCommand, code 3, writing no buffer.
PENDING left empty at completion is the model's (log 16). -/
def Obligations.IllegalWordsAreAcceptedAndFail : Prop :=
  ∀ w : Word,
    ((∀ i, decode w ≠ .ok i) ↔
      (5 ≤ (w.extractLsb' 0 8).toNat ∨
       w.extractLsb' 20 12 ≠ 0 ∨
       (w.extractLsb' 16 4 ≠ 0 ∧ (w.extractLsb' 0 8).toNat ≤ 3) ∨
       ((w.extractLsb' 8 4 ≠ 0 ∨ w.extractLsb' 12 4 ≠ 0) ∧
        (w.extractLsb' 0 8 = 0 ∨ w.extractLsb' 0 8 = 4)) ∨
       (w.extractLsb' 16 4 ≠ 0 ∧ w.extractLsb' 0 8 = 4))) ∧
    ∀ s : State, (∀ i, decode w ≠ .ok i) → s.busy = false →
      ∃ a : State, memWrite 0x00C 4 w s = .next a ∧
        a = { s with busy := true, pending := some w, cmdlast := w } ∧
        engineTurn a = .next
          { s with
            cmdlast := w, errCode := 3, errPos := 0, errOp := w.extractLsb' 0 8,
            err := true, done := true, busy := false, pending := none }

/-! ## Issue, completion and the step -/

/-- R170: acceptance latches the word and sets BUSY, and neither changes nor clears DONE or ERR; from then on no write changes the
operands or the latched word. -/
def Obligations.IdleCmdWriteIsAccepted : Prop :=
  ∀ (s : State) (w : Word), s.busy = false →
    ∃ a : State, memWrite 0x00C 4 w s = .next a ∧
      a = { s with pending := some w, cmdlast := w, busy := true } ∧
      ∀ (off size : Nat) (v : Word) (t : State), memWrite off size v a = .next t →
        t.sample = s.sample ∧ t.div = s.div ∧ t.coef = s.coef ∧ t.bits = s.bits ∧ t.pending = some w

/-- R171: a CMD write while busy is discarded and sets OVR. -/
def Obligations.BusyCmdWriteIsOverrun : Prop :=
  ∀ (s : State) (w : Word), s.busy = true →
    memWrite 0x00C 4 w s = .next { s with ovr := true }

/-- R172: where the engine moves next and the latched word decodes, the step is that command's completion, from the state without
that turn. -/
def Obligations.StepRunsDecodedCommand : Prop :=
  ∀ (s : State) (w : Word) (i : Instr),
    s.nextTurn = .engine → s.busy = true → s.pending = some w → decode w = .ok i →
    step s = exec i { s with turns := s.turns.tail }

/-- R194: the completion step of a word that matches no row records code 3, POS 0 and the word's low byte, sets ERR and DONE, and writes
nothing else.
PENDING left empty at completion is the model's (log 16). -/
def Obligations.StepFailsIllegalWord : Prop :=
  ∀ (s : State) (w : Word),
    s.nextTurn = .engine → s.busy = true → s.pending = some w → (∀ i, decode w ≠ .ok i) →
    step s = .next
      { s with
        turns := s.turns.tail, errCode := 3, errPos := 0, errOp := w.extractLsb' 0 8,
        err := true, done := true, busy := false, pending := none }

/-- R170, R172, R108: a host program's `sw 0x00C, w` on an idle engine, then the engine's turn, is the completion of the command of
`w` from the accepted state. -/
def Obligations.HostIssuesThenEngineCompletes : Prop :=
  ∀ (s : State) (i : Instr) (rest : List Turn), i.wellFormed = true → s.busy = false →
    s.turns = .host :: .engine :: rest → s.hostProg[s.hostPc]? = some (.sw 0x00C (encode i)) →
    ∃ a : State, step s = .next a ∧
      step a = exec i
        { s with
          pending := some (encode i), cmdlast := encode i, busy := true,
          hostPc := s.hostPc + 1, turns := rest }

/-- R172, R42: every command completes from every state, leaves the engine idle with DONE set, and never changes SAMPLE, CFG.BITS, CTRL,
CMDLAST, OVR or BWE; DIV only by LDDIV; ERR is only ever set.
PENDING left empty at completion is the model's (log 16). -/
def Obligations.EveryCommandCompletes : Prop :=
  ∀ (i : Instr) (s : State), ∃ t : State, exec i s = .next t ∧
    t.busy = false ∧ t.done = true ∧ t.pending = none ∧
    t.sample = s.sample ∧ t.bits = s.bits ∧ t.ie = s.ie ∧ t.cmdlast = s.cmdlast ∧
    t.ovr = s.ovr ∧ t.bwe = s.bwe ∧ (s.err = true → t.err = true) ∧
    (t.div ≠ s.div → i = .lddiv 0)

/-- R198: after any completion, of a command or of an illegal word, failed or not, the engine accepts the next command at once, whatever
ERR holds. -/
def Obligations.CompletedEngineAcceptsNext : Prop :=
  ∀ (s t : State) (w : Word), ((∃ v : Word, completeWord v s = .next t) ∨ ∃ i : Instr, exec i s = .next t) →
    ∃ a : State, memWrite 0x00C 4 w t = .next a ∧ a.pending = some w ∧ a.busy = true ∧ a.err = t.err

/-! ## The commands -/

/-- R173: NOP sets DONE, clears BUSY, and changes nothing else.
PENDING left empty at completion is the model's (log 16). -/
def Obligations.NopCompletes : Prop :=
  ∀ s : State, exec .nop s = .next { s with done := true, busy := false, pending := none }

/-- R121: every entry of COEF becomes `RoundHAZ(Σx Σy d(x,y)·W(u,v,x,y), 2^30)` exactly (no truncation), and nothing else is written but
the completion's DONE and BUSY.
PENDING left empty at completion is the model's (log 16). -/
def Obligations.FdctComputesTransform : Prop :=
  ∀ s : State, 1 ≤ s.bits.toNat → s.bits.toNat ≤ 16 →
    ∃ coef' : Matrix Word,
      exec (.fdct 8 8) s = .next
        { s with coef := coef', done := true, busy := false, pending := none } ∧
      ∀ u v : Fin 8, (coef'[idx u v]).toInt =
        roundHAZ (∑ x : Fin 8, ∑ y : Fin 8,
          ((s.sample[idx x y]).toInt - 2 ^ (s.bits.toNat - 1)) * rom u v x y) (2 ^ 30)

/-- R192: FDCT, QUANT and FDCTQ with a declared shape other than 8 × 8 record SHAPE, POS 0 and the command's OP, and write nothing else,
whatever the divisors are.
PENDING left empty at completion is the model's (log 16). -/
def Obligations.WrongShapeFails : Prop :=
  ∀ (s : State) (r c : BitVec 4), r ≠ 8 ∨ c ≠ 8 →
    exec (.fdct r c) s = .next
      { s with
        errCode := 1, errPos := 0, errOp := 0x01, err := true, done := true, busy := false, pending := none } ∧
    exec (.quant r c) s = .next
      { s with
        errCode := 1, errPos := 0, errOp := 0x02, err := true, done := true, busy := false, pending := none } ∧
    exec (.fdctq r c) s = .next
      { s with
        errCode := 1, errPos := 0, errOp := 0x03, err := true, done := true, busy := false, pending := none }

/-- R150, R193: with a divisor that is not positive, QUANT and FDCTQ record DIVISOR, the smallest such position and the command's OP, and
write nothing else: QOUT, NZMASK and COEF are unchanged.
PENDING left empty at completion is the model's (log 16). -/
def Obligations.BadDivisorFailsAtSmallestPosition : Prop :=
  ∀ (s : State) (k : Fin 64), (s.div[k]).toInt ≤ 0 → (∀ j : Fin 64, j < k → 0 < (s.div[j]).toInt) →
    exec (.quant 8 8) s = .next
      { s with
        errCode := 2, errPos := BitVec.ofNat 6 k.val, errOp := 0x02,
        err := true, done := true, busy := false, pending := none } ∧
    exec (.fdctq 8 8) s = .next
      { s with
        errCode := 2, errPos := BitVec.ofNat 6 k.val, errOp := 0x03,
        err := true, done := true, busy := false, pending := none }

/-- R152, R153, R156: QUANT divides each coefficient by the divisor of its position, rounding half away from zero, writes the mask of the
nonzero positions, and changes nothing else but DONE and BUSY.
PENDING left empty at completion is the model's (log 16). -/
def Obligations.QuantDividesAndMasks : Prop :=
  ∀ s : State, (∀ k : Fin 64, 0 < (s.div[k]).toInt) →
    ∃ (qout' : Matrix Word) (nz' : BitVec 64),
      exec (.quant 8 8) s = .next
        { s with qout := qout', nzmask := nz', done := true, busy := false, pending := none } ∧
      (∀ k : Fin 64, (qout'[k]).toInt =
        (s.coef[k]).toInt.sign *
          ((2 * ((s.coef[k]).toInt.natAbs : Int) + (s.div[k]).toInt) / (2 * (s.div[k]).toInt))) ∧
      ∀ k : Fin 64, nz'.getLsbD k.val = decide (qout'[k] ≠ 0)

/-- R175, R158: FDCTQ writes the transform of the samples to COEF, its quantization (of the already rounded coefficients) to QOUT and the
mask to NZMASK, and changes nothing else but DONE and BUSY.
PENDING left empty at completion is the model's (log 16). -/
def Obligations.FdctqTransformsThenQuantizes : Prop :=
  ∀ s : State, 1 ≤ s.bits.toNat → s.bits.toNat ≤ 16 → (∀ k : Fin 64, 0 < (s.div[k]).toInt) →
    ∃ (coef' qout' : Matrix Word) (nz' : BitVec 64),
      exec (.fdctq 8 8) s = .next
        { s with
          coef := coef', qout := qout', nzmask := nz', done := true, busy := false, pending := none } ∧
      (∀ u v : Fin 8, (coef'[idx u v]).toInt =
        roundHAZ (∑ x : Fin 8, ∑ y : Fin 8,
          ((s.sample[idx x y]).toInt - 2 ^ (s.bits.toNat - 1)) * rom u v x y) (2 ^ 30)) ∧
      (∀ u v : Fin 8, (qout'[idx u v]).toInt =
        roundHAZ (roundHAZ (∑ x : Fin 8, ∑ y : Fin 8,
          ((s.sample[idx x y]).toInt - 2 ^ (s.bits.toNat - 1)) * rom u v x y) (2 ^ 30))
          (s.div[idx u v]).toInt) ∧
      ∀ k : Fin 64, nz'.getLsbD k.val = decide (qout'[k] ≠ 0)

/-- R175: with valid divisors, FDCTQ leaves the same state as FDCT followed by QUANT. -/
def Obligations.FdctqEqualsFdctThenQuant : Prop :=
  ∀ s : State, (∀ k : Fin 64, 0 < (s.div[k]).toInt) →
    ∃ t u : State, exec (.fdct 8 8) s = .next t ∧ exec (.quant 8 8) t = .next u ∧
      exec (.fdctq 8 8) s = .next u

/-- R155, R174: LDDIV with table 0 loads `DIV[8i + j] = 3 + 2·(i + j)`, changes nothing else but DONE and BUSY, and is idempotent.
PENDING left empty at completion is the model's (log 16). -/
def Obligations.LddivLoadsRamp : Prop :=
  ∀ s : State, ∃ div' : Matrix Half,
    exec (.lddiv 0) s = .next { s with div := div', done := true, busy := false, pending := none } ∧
    (∀ i j : Fin 8, (div'[idx i j]).toInt = 3 + 2 * ((i.val : Int) + (j.val : Int))) ∧
    ∀ t : State, exec (.lddiv 0) s = .next t → exec (.lddiv 0) t = .next t

/-- R174, R106: a reserved table is IllegalCommand with OP 0x04, and DIV is unchanged.
PENDING left empty at completion is the model's (log 16). -/
def Obligations.LddivReservedTableFails : Prop :=
  ∀ (s : State) (tbl : BitVec 4), tbl ≠ 0 →
    exec (.lddiv tbl) s = .next
      { s with
        errCode := 3, errPos := 0, errOp := 0x04, err := true, done := true, busy := false, pending := none }

/-- R42: byte by byte over the whole window, a failing command changes STATUS and ERRINFO only, a successful one STATUS and its own
outputs only. -/
def Obligations.CommandsWriteOnlyTheirOutputs : Prop :=
  ∀ (i : Instr) (s t : State), exec i s = .next t →
    (t.err = true ∧ ∀ off : Nat, statusOffset off = false → errinfoOffset off = false →
      t.viewByte off = s.viewByte off) ∨
    (t.err = s.err ∧ ∀ off : Nat, statusOffset off = false → outputOffset i off = false →
      t.viewByte off = s.viewByte off)

/-- R195: at most one error is reported, illegal before shape before divisor; and a command with none of the three leaves ERRINFO and
ERR alone. -/
def Obligations.ErrorsAreReportedInOrder : Prop :=
  ∀ (w : Word) (s t : State), completeWord w s = .next t →
    ((∀ i, decode w ≠ .ok i) → t.errCode = 3 ∧ t.errPos = 0) ∧
    (∀ r c : BitVec 4,
      (decode w = .ok (.fdct r c) ∨ decode w = .ok (.quant r c) ∨ decode w = .ok (.fdctq r c)) →
      (r ≠ 8 ∨ c ≠ 8) → t.errCode = 1 ∧ t.errPos = 0) ∧
    ((decode w = .ok (.quant 8 8) ∨ decode w = .ok (.fdctq 8 8)) →
      ∀ k : Fin 64, (s.div[k]).toInt ≤ 0 → (∀ j : Fin 64, j < k → 0 < (s.div[j]).toInt) →
        t.errCode = 2 ∧ t.errPos.toNat = k.val) ∧
    ((decode w = .ok .nop ∨ decode w = .ok (.lddiv 0) ∨ decode w = .ok (.fdct 8 8) ∨
      ((decode w = .ok (.quant 8 8) ∨ decode w = .ok (.fdctq 8 8)) ∧
        ∀ k : Fin 64, 0 < (s.div[k]).toInt)) →
      t.errCode = s.errCode ∧ t.errPos = s.errPos ∧ t.errOp = s.errOp ∧ t.err = s.err)

/-- R133, R43: a command's outputs depend on its operands alone: COEF on SAMPLE and BITS; QOUT and NZMASK on COEF and DIV, or, for FDCTQ,
on SAMPLE, BITS and DIV. -/
def Obligations.OutputsDependOnOperandsOnly : Prop :=
  ∀ s₁ s₂ t₁ t₂ : State,
    (s₁.sample = s₂.sample → s₁.bits = s₂.bits →
      exec (.fdct 8 8) s₁ = .next t₁ → exec (.fdct 8 8) s₂ = .next t₂ → t₁.coef = t₂.coef) ∧
    (s₁.coef = s₂.coef → s₁.div = s₂.div → (∀ k : Fin 64, 0 < (s₁.div[k]).toInt) →
      exec (.quant 8 8) s₁ = .next t₁ → exec (.quant 8 8) s₂ = .next t₂ →
      t₁.qout = t₂.qout ∧ t₁.nzmask = t₂.nzmask) ∧
    (s₁.sample = s₂.sample → s₁.bits = s₂.bits → s₁.div = s₂.div →
      (∀ k : Fin 64, 0 < (s₁.div[k]).toInt) →
      exec (.fdctq 8 8) s₁ = .next t₁ → exec (.fdctq 8 8) s₂ = .next t₂ →
      t₁.coef = t₂.coef ∧ t₁.qout = t₂.qout ∧ t₁.nzmask = t₂.nzmask)

/-! ## The transform and the quantizer as arithmetic -/

/-- R11: RoundHAZ is the nearest integer, and a tie goes to the integer of larger magnitude. -/
def Obligations.RoundHazIsNearestTiesOutward : Prop :=
  ∀ a b : Int, 0 < b →
    2 * (b * roundHAZ a b - a).natAbs ≤ b.natAbs ∧
    (2 * (a.natAbs % b.natAbs) = b.natAbs → a.natAbs < b.natAbs * (roundHAZ a b).natAbs) ∧
    roundHAZ a b = a.sign * ((2 * (a.natAbs : Int) + b) / (2 * b))

/-- R129: the rounding unit is `RoundHAZ(acc, 2^30)`: nearest, ties to the larger magnitude, 0 to 0, and symmetric. -/
def Obligations.RoundingUnitIsRoundHaz : Prop :=
  ∀ acc : Int,
    roundingUnit acc = roundHAZ acc (2 ^ 30) ∧
    (roundingUnit acc).natAbs = (acc.natAbs + 2 ^ 29) / 2 ^ 30 ∧
    2 * (2 ^ 30 * roundingUnit acc - acc).natAbs ≤ 2 ^ 30 ∧
    (acc.natAbs % 2 ^ 30 = 2 ^ 29 → acc.natAbs < 2 ^ 30 * (roundingUnit acc).natAbs) ∧
    roundingUnit 0 = 0 ∧
    roundingUnit (-acc) = -roundingUnit acc

/-- R128: the weights are mirrored with the parity of their frequency, so for every sample matrix and legal BITS the datapath, at its stated
widths, computes exactly the accumulator and the coefficient matrix of the direct sum. -/
def Obligations.ButterflyEqualsDirectSum : Prop :=
  (∀ k n : Fin 8, (angle k (mirror n)).1 = (angle k n).1 ∧ (angle k (mirror n)).2 = (-1) ^ k.val * (angle k n).2) ∧
  (∀ u v x y : Fin 8,
    rom u v (mirror x) y = (-1) ^ u.val * rom u v x y ∧ rom u v x (mirror y) = (-1) ^ v.val * rom u v x y) ∧
  ∀ (sample : Matrix Half) (bits : BitVec 5), 1 ≤ bits.toNat → bits.toNat ≤ 16 →
    (∀ u v : Fin 8,
      (adderTree (shiftStage sample bits) u v).toInt = directSum (shifted sample bits) u v) ∧
    butterflyDct sample bits = forwardDct sample bits

/-- R126: over the direct form the accumulator stays below 2^50 and the rounded result is at most 1008667 in magnitude. -/
def Obligations.TransformNeverOverflows : Prop :=
  ∀ d : Fin 8 → Fin 8 → Int, (∀ x y, -65536 ≤ d x y ∧ d x y ≤ 32766) →
    ∀ u v : Fin 8, (directSum d u v).natAbs < 2 ^ 50 ∧ (coefficient d u v).natAbs ≤ 1008667

/-- R120: the level-shifted sample lies in [−65536, 32766] for every legal BITS. -/
def Obligations.LevelShiftRange : Prop :=
  ∀ (sample : Matrix Half) (bits : BitVec 5), 1 ≤ bits.toNat → bits.toNat ≤ 16 →
    ∀ x y : Fin 8,
      shifted sample bits x y = (sample[idx x y]).toInt - 2 ^ (bits.toNat - 1) ∧
      -65536 ≤ shifted sample bits x y ∧ shifted sample bits x y ≤ 32766

/-- R132: the accumulator is exactly linear in the level-shifted samples, and each rounded coefficient within (|a| + |b| + 1)/2. -/
def Obligations.TransformIsLinearWithinRounding : Prop :=
  ∀ (a b : Int) (d₁ d₂ : Fin 8 → Fin 8 → Int) (u v : Fin 8),
    directSum (fun x y => a * d₁ x y + b * d₂ x y) u v =
      a * directSum d₁ u v + b * directSum d₂ u v ∧
    2 * (coefficient (fun x y => a * d₁ x y + b * d₂ x y) u v
      - a * coefficient d₁ u v - b * coefficient d₂ u v).natAbs ≤ a.natAbs + b.natAbs + 1

/-- R130: after FDCT the DC coefficient is `RoundHAZ(Σd, 8)`, and the outputs with u and v in {0, 4} are the signed sums over the pattern
+ − − + + − − +, rounded by 8. -/
def Obligations.DcAndExactOutputs : Prop :=
  ∀ s : State, 1 ≤ s.bits.toNat → s.bits.toNat ≤ 16 →
    ∃ t : State, exec (.fdct 8 8) s = .next t ∧
      (t.coef[idx 0 0]).toInt =
        roundHAZ (∑ x : Fin 8, ∑ y : Fin 8, ((s.sample[idx x y]).toInt - 2 ^ (s.bits.toNat - 1))) 8 ∧
      ∀ u v : Fin 8, (u = 0 ∨ u = 4) → (v = 0 ∨ v = 4) →
        (t.coef[idx u v]).toInt =
          roundHAZ (∑ x : Fin 8, ∑ y : Fin 8,
            (if u = 0 then 1 else (![1, -1, -1, 1, 1, -1, -1, 1] : Fin 8 → Int) x) *
            (if v = 0 then 1 else (![1, -1, -1, 1, 1, -1, -1, 1] : Fin 8 → Int) y) *
            ((s.sample[idx x y]).toInt - 2 ^ (s.bits.toNat - 1))) 8

/-- R131: every sample equal to the shift gives the all-zero COEF. -/
def Obligations.ConstantShiftBlockGivesZero : Prop :=
  ∀ s : State, (∀ k : Fin 64, (s.sample[k]).toInt = 2 ^ (s.bits.toNat - 1)) →
    ∃ t : State, exec (.fdct 8 8) s = .next t ∧ ∀ k : Fin 64, t.coef[k] = 0

/-- R152: each lane of QUANT is the exact rounded quotient; its numerator and denominator have the stated bounds; the result is never
larger than the coefficient, reaches 2^31 only as −2^31 for c = −2^31 and q = 1, and a tie goes outward. -/
def Obligations.QuantLaneIsExactRoundedQuotient : Prop :=
  ∀ s : State, (∀ k : Fin 64, 0 < (s.div[k]).toInt) →
    ∃ t : State, exec (.quant 8 8) s = .next t ∧
      ∀ (k : Fin 64) (c q r : Int), c = (s.coef[k]).toInt → q = (s.div[k]).toInt → r = (t.qout[k]).toInt →
        r = roundHAZ c q ∧ r = c.sign * ((2 * (c.natAbs : Int) + q) / (2 * q)) ∧
        2 * (c.natAbs : Int) + q ≤ 2 ^ 32 + 32767 ∧ 2 * q ≤ 65534 ∧
        r.natAbs ≤ c.natAbs ∧ c.natAbs ≤ 2 ^ 31 ∧
        (r.natAbs = 2 ^ 31 → r = -2 ^ 31 ∧ c = -2 ^ 31 ∧ q = 1) ∧
        (2 * (c.natAbs % q.natAbs) = q.natAbs → c.natAbs < q.natAbs * r.natAbs)

/-- R154: after QUANT an entry is zero exactly when twice the coefficient's magnitude is below the divisor; between half the divisor and
the divisor it is ±1. -/
def Obligations.QuantLaneZeroExactly : Prop :=
  ∀ s : State, (∀ k : Fin 64, 0 < (s.div[k]).toInt) →
    ∃ t : State, exec (.quant 8 8) s = .next t ∧
      ∀ k : Fin 64,
        (t.qout[k] = 0 ↔ 2 * ((s.coef[k]).toInt.natAbs : Int) < (s.div[k]).toInt) ∧
        ((s.div[k]).toInt ≤ 2 * ((s.coef[k]).toInt.natAbs : Int) → ((s.coef[k]).toInt.natAbs : Int) < (s.div[k]).toInt →
          (t.qout[k]).toInt = 1 ∨ (t.qout[k]).toInt = -1)

/-- R157: the all-zero coefficient matrix with any valid divisors gives the all-zero QOUT and NZMASK = 0. -/
def Obligations.ZeroCoefficientsQuantizeToZero : Prop :=
  ∀ s : State, (∀ k : Fin 64, s.coef[k] = 0) → (∀ k : Fin 64, 0 < (s.div[k]).toInt) →
    ∃ t : State, exec (.quant 8 8) s = .next t ∧ (∀ k : Fin 64, t.qout[k] = 0) ∧ t.nzmask = 0

/-- R45: every ROM weight is the source's basis product scaled by 2^30, rounded to the nearest integer, within 1/2 − 10^-6, and none is
0. -/
def Obligations.RomIsRoundedBasisProduct : Prop :=
  ∀ u v x y : Fin 8,
    |(rom u v x y : ℝ) - 2 ^ 30 * Formula.basis u v x y| < 1 / 2 - 1 / 10 ^ 6 ∧ rom u v x y ≠ 0

/-- R46: the angle index is in 1..7, the sign is ±1, and `S(k,n)·cos(J(k,n)π/16) = α(k)·cos((2n+1)kπ/16)` exactly. -/
def Obligations.RomAddressMapIsExact : Prop :=
  ∀ k n : Fin 8,
    1 ≤ (angle k n).1 ∧ (angle k n).1 ≤ 7 ∧ ((angle k n).2 = 1 ∨ (angle k n).2 = -1) ∧
    ((angle k n).2 : ℝ) * Real.cos (((angle k n).1 : ℝ) * Real.pi / 16) =
      Formula.alpha k * Real.cos ((2 * (n.val : ℝ) + 1) * (k.val : ℝ) * Real.pi / 16)

/-- R48: `P[4][4] = 2^27`, every weight with u and v in {0, 4} is ±2^27 and has no rounding error, and every other weight carries an
error of at most 1/2. -/
def Obligations.ExactRomEntries : Prop :=
  magnitude 4 4 = 2 ^ 27 ∧
  (∀ u v x y : Fin 8, (u = 0 ∨ u = 4) → (v = 0 ∨ v = 4) →
    (rom u v x y = 2 ^ 27 ∨ rom u v x y = -2 ^ 27) ∧
    (rom u v x y : ℝ) = 2 ^ 30 * Formula.basis u v x y) ∧
  ∀ u v x y : Fin 8, |(rom u v x y : ℝ) - 2 ^ 30 * Formula.basis u v x y| ≤ 1 / 2

/-- R122: the accumulator differs from the real formula by at most 2^−31·Σ|d|; where the real value is farther than that from every
half-integer the coefficient is its nearest integer; for u and v in {0, 4} there is no difference. -/
def Obligations.FixedPointDistanceFromFormula : Prop :=
  ∀ (d : Fin 8 → Fin 8 → Int) (u v : Fin 8),
    |(directSum d u v : ℝ) / 2 ^ 30 - Formula.realDct d u v| ≤
      (∑ x : Fin 8, ∑ y : Fin 8, |(d x y : ℝ)|) / 2 ^ 31 ∧
    ((∀ m : ℤ, (∑ x : Fin 8, ∑ y : Fin 8, |(d x y : ℝ)|) / 2 ^ 31 <
        |Formula.realDct d u v - ((m : ℝ) + 1 / 2)|) →
      coefficient d u v = round (Formula.realDct d u v)) ∧
    ((u = 0 ∨ u = 4) → (v = 0 ∨ v = 4) →
      (directSum d u v : ℝ) / 2 ^ 30 = Formula.realDct d u v)

/-! ## The register window -/

/-- R71: the effect of every aligned 32-bit host write, busy or idle. -/
def Obligations.HostWriteTable : Prop :=
  ∀ (s : State) (w : Word),
    memWrite 0x004 4 w s = .next { s with ie := w.getLsbD 0 } ∧
    memWrite 0x008 4 w s = .next
      { s with
        done := s.done && !w.getLsbD 1, err := s.err && !w.getLsbD 2,
        ovr := s.ovr && !w.getLsbD 3, bwe := s.bwe && !w.getLsbD 4 } ∧
    memWrite 0x00C 4 w s = .next
      (if s.busy then { s with ovr := true }
       else { s with pending := some w, cmdlast := w, busy := true }) ∧
    memWrite 0x014 4 w s = .next
      (if s.busy then { s with bwe := true }
       else if 1 ≤ (w.extractLsb' 0 5).toNat ∧ (w.extractLsb' 0 5).toNat ≤ 16
         then { s with bits := w.extractLsb' 0 5 } else s) ∧
    (∀ k : Fin 64,
      memWrite (0x100 + 4 * k.val) 4 w s = .next
        (if s.busy then { s with bwe := true }
         else { s with sample := s.sample.set k (w.extractLsb' 0 16) }) ∧
      memWrite (0x200 + 4 * k.val) 4 w s = .next
        (if s.busy then { s with bwe := true }
         else { s with div := s.div.set k (w.extractLsb' 0 16) }) ∧
      memWrite (0x300 + 4 * k.val) 4 w s = .next
        (if s.busy then { s with bwe := true } else { s with coef := s.coef.set k w })) ∧
    ∀ off : Nat, off % 4 = 0 → off < 0x1000 →
      off ≠ 0x004 → off ≠ 0x008 → off ≠ 0x00C → off ≠ 0x014 → (off < 0x100 ∨ 0x400 ≤ off) →
      memWrite off 4 w s = .next s

/-- R74: what every aligned 32-bit host read of an idle device returns; no read changes anything (R78). -/
def Obligations.IdleReadTable : Prop :=
  ∀ s : State, s.busy = false →
    memRead 0x000 4 s = .next (0x44435438, s) ∧
    memRead 0x004 4 s = .next (BitVec.ofNat 32 s.ie.toNat, s) ∧
    memRead 0x008 4 s = .next
      (BitVec.ofNat 32 (2 * s.done.toNat + 4 * s.err.toNat + 8 * s.ovr.toNat + 16 * s.bwe.toNat), s) ∧
    memRead 0x00C 4 s = .next (s.cmdlast, s) ∧
    memRead 0x010 4 s = .next
      (BitVec.ofNat 32 (s.errCode.toNat + 0x100 * s.errPos.toNat + 0x10000 * s.errOp.toNat), s) ∧
    memRead 0x014 4 s = .next (BitVec.ofNat 32 (0x800 + s.bits.toNat), s) ∧
    memRead 0x018 4 s = .next (BitVec.ofNat 32 (s.nzmask.toNat % 2 ^ 32), s) ∧
    memRead 0x01C 4 s = .next (BitVec.ofNat 32 (s.nzmask.toNat / 2 ^ 32), s) ∧
    (∀ k : Fin 64,
      memRead (0x100 + 4 * k.val) 4 s = .next (BitVec.ofInt 32 (s.sample[k]).toInt, s) ∧
      memRead (0x200 + 4 * k.val) 4 s = .next (BitVec.ofInt 32 (s.div[k]).toInt, s) ∧
      memRead (0x300 + 4 * k.val) 4 s = .next (s.coef[k], s) ∧
      memRead (0x400 + 4 * k.val) 4 s = .next (s.qout[k], s)) ∧
    ∀ off : Nat, off % 4 = 0 → ((0x020 ≤ off ∧ off < 0x100) ∨ (0x500 ≤ off ∧ off < 0x1000)) →
      memRead off 4 s = .next (0, s)

/-- R77: while busy, ID, CTRL, STATUS (with BUSY = 1), CMD, CFG, SAMPLE and the reserved offsets read as idle; a read of a location the
running command may write answers some word and draws a fresh free value, and changes nothing else (log 3: the word is a free value). -/
def Obligations.BusyReadTable : Prop :=
  ∀ s : State, s.busy = true →
    memRead 0x000 4 s = .next (0x44435438, s) ∧
    memRead 0x004 4 s = .next (BitVec.ofNat 32 s.ie.toNat, s) ∧
    memRead 0x008 4 s = .next
      (BitVec.ofNat 32
        (1 + 2 * s.done.toNat + 4 * s.err.toNat + 8 * s.ovr.toNat + 16 * s.bwe.toNat), s) ∧
    memRead 0x00C 4 s = .next (s.cmdlast, s) ∧
    memRead 0x014 4 s = .next (BitVec.ofNat 32 (0x800 + s.bits.toNat), s) ∧
    (∀ k : Fin 64,
      memRead (0x100 + 4 * k.val) 4 s = .next (BitVec.ofInt 32 (s.sample[k]).toInt, s)) ∧
    (∀ off : Nat, off % 4 = 0 → ((0x020 ≤ off ∧ off < 0x100) ∨ (0x500 ≤ off ∧ off < 0x1000)) →
      memRead off 4 s = .next (0, s)) ∧
    ∀ off : Nat, off % 4 = 0 →
      (off = 0x010 ∨ off = 0x018 ∨ off = 0x01C ∨ (0x200 ≤ off ∧ off < 0x500)) →
      memRead off 4 s = .next (Config.busyRead s.inst s.draws, { s with draws := s.draws + 1 })

/-- R38, R39, R40: on an idle device a written SAMPLE or DIV entry reads back as the sign-extended low half, a written COEF entry as the
whole word, and every other register reads as before. -/
def Obligations.BufferReadAfterWrite : Prop :=
  ∀ (s : State) (w : Word) (k : Fin 64), s.busy = false →
    (∃ t : State, memWrite (0x100 + 4 * k.val) 4 w s = .next t ∧
      memRead (0x100 + 4 * k.val) 4 t = .next (BitVec.ofInt 32 (w.extractLsb' 0 16).toInt, t) ∧
      ∀ off : Nat, off % 4 = 0 → off < 0x1000 → off ≠ 0x100 + 4 * k.val →
        t.view (locOf off) = s.view (locOf off)) ∧
    (∃ t : State, memWrite (0x200 + 4 * k.val) 4 w s = .next t ∧
      memRead (0x200 + 4 * k.val) 4 t = .next (BitVec.ofInt 32 (w.extractLsb' 0 16).toInt, t) ∧
      ∀ off : Nat, off % 4 = 0 → off < 0x1000 → off ≠ 0x200 + 4 * k.val →
        t.view (locOf off) = s.view (locOf off)) ∧
    (∃ t : State, memWrite (0x300 + 4 * k.val) 4 w s = .next t ∧
      memRead (0x300 + 4 * k.val) 4 t = .next (w, t) ∧
      ∀ off : Nat, off % 4 = 0 → off < 0x1000 → off ≠ 0x300 + 4 * k.val →
        t.view (locOf off) = s.view (locOf off))

/-- R73: bit b of the register at an aligned offset travels on byte lane `off + (b >> 3)`, as bit `b mod 8`. -/
def Obligations.ByteLanesAreLittleEndian : Prop :=
  ∀ (s : State) (off : Nat) (b : Fin 32), off % 4 = 0 →
    (s.view (locOf off)).getLsbD b.val = (s.viewByte (off + b.val / 8)).getLsbD (b.val % 8)

/-- R72: a read or write that is not an aligned 32-bit access has no step: it is refused. -/
def Obligations.SubwordAccessIsRefused : Prop :=
  ∀ (s : State) (off size : Nat) (w : Word), (size ≠ 4 ∨ off % 4 ≠ 0) →
    memRead off size s = .refused .accessNotAlignedWord ∧
    memWrite off size w s = .refused .accessNotAlignedWord

/-- R24, R70, R86: a single access of any bus master, at an absolute address, is the access of the register at that address minus BASE;
one outside the 4 KiB window is no access to this device (log 9: it is refused). -/
def Obligations.MasterAccessesReachTheWindow : Prop :=
  ∀ (s : State) (rest : List Turn),
    (∀ off size w a, s.turns = .bus (.write (s.base + off) size w) :: rest →
      memWrite off size w { s with turns := rest } = .next a → step s = .next a) ∧
    (∀ off size v a, s.turns = .bus (.read (s.base + off) size) :: rest →
      memRead off size { s with turns := rest } = .next (v, a) → step s = .next { a with rdata := v }) ∧
    ∀ addr w, addr % 4 = 0 → (addr < s.base ∨ s.base + 0x1000 ≤ addr) →
      (s.turns = .bus (.write addr 4 w) :: rest ∨ s.turns = .bus (.read addr 4) :: rest) →
      step s = .refused .outsideWindow

/-- R44, R200: irq is IE and DONE; every completion, of a command or of an illegal word, raises it exactly while IE = 1; a W1C write of bit 1
of STATUS, a write of IE = 0 and a reset (one turn of the model, log 10) clear it. -/
def Obligations.InterruptIsLevelOfDone : Prop :=
  (∀ s : State, s.irq = (s.ie && s.done)) ∧
  (∀ (s t : State), ((∃ w : Word, completeWord w s = .next t) ∨ ∃ i : Instr, exec i s = .next t) → t.irq = s.ie ∧ t.ie = s.ie) ∧
  (∀ (s t : State) (w : Word), memWrite 0x008 4 w s = .next t → w.getLsbD 1 = true → t.irq = false) ∧
  (∀ (s t : State) (w : Word), memWrite 0x004 4 w s = .next t → w.getLsbD 0 = false → t.irq = false) ∧
  ∀ s : State, s.rst.irq = false

/-! ## Reset -/

/-- R231, R230, R232: a reset turn, from any state, busy or not, leaves every piece of state the table fixes at its value and the engine
idle. The three unspecified buffers are not mentioned. -/
def Obligations.ResetGivesTheTable : Prop :=
  ∀ s : State, s.nextTurn = .rst →
    ∃ t : State, step s = .next t ∧
      t.ie = false ∧ t.busy = false ∧ t.done = false ∧ t.err = false ∧ t.ovr = false ∧ t.bwe = false ∧
      t.cmdlast = 0 ∧ t.pending = none ∧ t.errCode = 0 ∧ t.errPos = 0 ∧ t.errOp = 0 ∧ t.bits = 8 ∧
      t.view .cfg = 0x00000808 ∧ t.nzmask = 0 ∧
      (∀ i j : Fin 8, (t.div[idx i j]).toInt = 3 + 2 * ((i.val : Int) + (j.val : Int))) ∧
      t.view .id = 0x44435438 ∧ t.irq = false

/-- R231: the state right after reset has the values the table fixes. -/
def Obligations.ResetStateHasTheTable : Prop :=
  State.reset.ie = false ∧ State.reset.busy = false ∧ State.reset.done = false ∧
  State.reset.err = false ∧ State.reset.ovr = false ∧ State.reset.bwe = false ∧
  State.reset.cmdlast = 0 ∧ State.reset.pending = none ∧ State.reset.errCode = 0 ∧
  State.reset.errPos = 0 ∧ State.reset.errOp = 0 ∧ State.reset.bits = 8 ∧
  State.reset.view .cfg = 0x00000808 ∧ State.reset.nzmask = 0 ∧
  (∀ i j : Fin 8, (State.reset.div[idx i j]).toInt = 3 + 2 * ((i.val : Int) + (j.val : Int))) ∧
  State.reset.view .id = 0x44435438 ∧ State.reset.irq = false

/-! ## Rules of the whole machine -/

/-- R28, R34, R35, R43, R191: the invariant holds right after reset. That an idle engine latches nothing is the model's (log 16). -/
def Obligations.ResetMeetsInvariant : Prop := State.reset.Inv

/-- R28, R34, R35, R43, R191: every step keeps the invariant: BUSY says that a command is latched, CMDLAST is that command, BITS is legal,
ERRINFO holds only what R191 allows. That an idle engine latches nothing is the model's (log 16). -/
def Obligations.StepKeepsInvariant : Prop :=
  ∀ s t : State, s.Inv → step s = .next t → t.Inv

/-- R190, R72: from a state with the invariant whose accesses to come are all defined, a step answers a next state, and the same holds
of it: the machine never stops. -/
def Obligations.MachineNeverStops : Prop :=
  ∀ s : State, s.Inv → s.AccessesOk → ∃ t : State, step s = .next t ∧ t.Inv ∧ t.AccessesOk

/-- R172: a busy engine completes its command, with the operands it was accepted with, within as many steps as there are turns still to
come, and one. The bound is the model's choice of a finite list of turns (log 5); the spec gives weak fairness. -/
def Obligations.BusyEngineCompletes : Prop :=
  ∀ s : State, s.Inv → s.AccessesOk → s.busy = true → (∀ a ∈ s.turns, a ≠ .rst) →
    ∃ (n : Nat) (w : Word) (a t : State), n ≤ s.turns.length ∧ runSteps n s = .next a ∧
      s.pending = some w ∧ a.pending = some w ∧ a.sample = s.sample ∧ a.div = s.div ∧ a.coef = s.coef ∧
      a.bits = s.bits ∧ a.nextTurn = .engine ∧ step a = .next t ∧
      completeWord w a.popTurn = .next t ∧ t.busy = false ∧ t.done = true

/-- R43, R76: while busy, no step but the completion or a reset changes an operand, a result, the latched command, CMDLAST, ERRINFO or
BUSY. -/
def Obligations.OperandsAreFixedWhileBusy : Prop :=
  ∀ s t : State, step s = .next t → s.busy = true → s.nextTurn ≠ .engine → s.nextTurn ≠ .rst →
    t.sample = s.sample ∧ t.div = s.div ∧ t.coef = s.coef ∧ t.bits = s.bits ∧ t.qout = s.qout ∧
    t.nzmask = s.nzmask ∧ t.pending = s.pending ∧ t.cmdlast = s.cmdlast ∧ t.busy = true ∧
    t.errCode = s.errCode ∧ t.errPos = s.errPos ∧ t.errOp = s.errOp

/-- R28 to R32, R49: outside a reset, each STATUS flag is set and cleared only by the events its rule names. -/
def Obligations.FlagsChangeOnlyByTheirEvents : Prop :=
  ∀ s t : State, step s = .next t → s.nextTurn ≠ .rst →
    (s.busy = false → t.busy = true → ∃ w, s.nextWrite = some (0x00C, w)) ∧
    (s.busy = true → t.busy = false → s.nextTurn = .engine) ∧
    (s.done = false → t.done = true → s.nextTurn = .engine ∧ s.busy = true) ∧
    (s.done = true → t.done = false → ∃ w, s.nextWrite = some (0x008, w) ∧ w.getLsbD 1 = true) ∧
    (s.err = false → t.err = true → s.nextTurn = .engine ∧ s.busy = true ∧ t.errCode ≠ 0) ∧
    (s.err = true → t.err = false → ∃ w, s.nextWrite = some (0x008, w) ∧ w.getLsbD 2 = true) ∧
    (s.ovr = false → t.ovr = true → s.busy = true ∧ ∃ w, s.nextWrite = some (0x00C, w)) ∧
    (s.ovr = true → t.ovr = false → ∃ w, s.nextWrite = some (0x008, w) ∧ w.getLsbD 3 = true) ∧
    (s.bwe = false → t.bwe = true → s.busy = true ∧ ∃ off w, s.nextWrite = some (off, w) ∧
      (off = 0x014 ∨ (0x100 ≤ off ∧ off < 0x400))) ∧
    (s.bwe = true → t.bwe = false → ∃ w, s.nextWrite = some (0x008, w) ∧ w.getLsbD 4 = true)

/-- R34: outside a reset, ERRINFO changes only at the completion of a command that fails: the step is the completion of the latched word,
and that completion is the failure entry of some error (R196; PENDING left empty by it is the model's, log 16). -/
def Obligations.ErrinfoChangesOnlyOnFailure : Prop :=
  ∀ s t : State, step s = .next t → s.nextTurn ≠ .rst → t.view .errinfo ≠ s.view .errinfo →
    s.nextTurn = .engine ∧ s.busy = true ∧ t.err = true ∧ t.done = true ∧ t.busy = false ∧
    ∃ (w : Word) (e : CommandError) (op : BitVec 8), s.pending = some w ∧
      completeWord w s.popTurn = .next t ∧ t = s.popTurn.fail e op

/-- R37, R41, R153: outside a reset, NZMASK and QOUT change only at the completion of QUANT or FDCTQ with the 8 × 8 shape, and then bit k of
the mask is 1 exactly when QOUT[k] ≠ 0. -/
def Obligations.MaskChangesOnlyByQuantizer : Prop :=
  ∀ s t : State, step s = .next t → s.nextTurn ≠ .rst → (t.nzmask ≠ s.nzmask ∨ t.qout ≠ s.qout) →
    s.nextTurn = .engine ∧ s.busy = true ∧
    (s.pending = some 0x00008802 ∨ s.pending = some 0x00008803) ∧
    ∀ k : Fin 64, t.nzmask.getLsbD k.val = decide (t.qout[k] ≠ 0)

/-- R205: a step of one instance is that instance's own step, changes no other instance, and commutes with the step of another; each
instance keeps its number, the instances right after power-on have theirs, and the windows of two instances do not meet. -/
def Obligations.InstancesShareNothing : Prop :=
  (∀ n : Nat, (System.reset n).Numbered) ∧
  ∀ (p q : System) (j k : Nat), j ≠ k → p.stepAt k = .next q →
    q.instances.length = p.instances.length ∧ q.instances[j]? = p.instances[j]? ∧
    (∀ s, p.instances[k]? = some s → ∃ s', step s = .next s' ∧ q.instances[k]? = some s') ∧
    (∀ q₂ : System, p.stepAt j = .next q₂ →
      ∃ r : System, q.stepAt j = .next r ∧ q₂.stepAt k = .next r) ∧
    (p.Numbered → q.Numbered ∧
      ∀ a b : State, q.instances[j]? = some a → q.instances[k]? = some b →
        a.base + 0x1000 ≤ b.base ∨ b.base + 0x1000 ≤ a.base)

/-! ## The host notation -/

/-- R108: what the host's turn does for each operation of the notation. The turn is the host's and is taken off the list first. -/
def Obligations.HostOperationsRun : Prop :=
  ∀ (s : State) (rest : List Turn), s.turns = .host :: rest →
    (∀ off imm a, s.hostProg[s.hostPc]? = some (.sw off imm) →
      memWrite off 4 imm { s with turns := rest } = .next a →
      step s = .next { a with hostPc := s.hostPc + 1 }) ∧
    (∀ off r a, s.hostProg[s.hostPc]? = some (.swt off r) →
      memWrite off 4 s.t[r] { s with turns := rest } = .next a →
      step s = .next { a with hostPc := s.hostPc + 1 }) ∧
    (∀ r off v a, s.hostProg[s.hostPc]? = some (.lw r off) →
      memRead off 4 { s with turns := rest } = .next (v, a) →
      step s = .next { a with t := s.t.set r v, hostPc := s.hostPc + 1 }) ∧
    (∀ r m imm, s.hostProg[s.hostPc]? = some (.andi r m imm) →
      step s = .next
        { s with turns := rest, t := s.t.set r (s.t[m] &&& imm), hostPc := s.hostPc + 1 }) ∧
    (∀ r l n, s.hostProg[s.hostPc]? = some (.bnez r l) → s.hostProg.idxOf? (.label l) = some n →
      step s = .next
        { s with turns := rest, hostPc := if s.t[r] ≠ 0 then n else s.hostPc + 1 }) ∧
    (s.hostProg[s.hostPc]? = some .halt → step s = .next { s with turns := rest })

/-- R109, R80: `wait`, four host turns long, leaves t7 = 0 and goes on when the engine is idle, and goes back to its label with t7 = 1
while the engine is busy. -/
def Obligations.WaitLoopsUntilIdle : Prop :=
  ∀ (s : State) (l : Nat) (before after : List HostOp) (rest : List Turn),
    s.hostProg = before ++ pseudoWait l ++ after → .label l ∉ before → s.hostPc = before.length →
    s.turns = .host :: .host :: .host :: .host :: rest →
    runSteps 4 s = .next
      { s with
        turns := rest,
        t := s.t.set 7 (if s.busy then 1 else 0),
        hostPc := if s.busy then before.length else before.length + 4 }
end

