-- ==== Sys2Proof/Laws/Buffers.lean ====
section
/-! SUPPORT. The small lemmas of the matrix positions, the buffers, the divisor scan, the mask and the rounding function. -/

namespace Sys2Proof.Machine

@[simp] theorem row_idx (r c : Fin 8) : row (idx r c) = r := by
  apply Fin.ext; simp only [row, idx]; omega

@[simp] theorem col_idx (r c : Fin 8) : col (idx r c) = c := by
  apply Fin.ext; simp only [col, idx]; omega

@[simp] theorem idx_row_col (k : Fin 64) : idx (row k) (col k) = k := by
  apply Fin.ext; simp only [row, col, idx]; omega

@[simp] theorem forwardDct_get (sample : Matrix Half) (bits : BitVec 5) (k : Fin 64) :
    (forwardDct sample bits)[k] =
      BitVec.ofInt 32 (coefficient (shifted sample bits) (row k) (col k)) := by
  simp [forwardDct]

@[simp] theorem butterflyDct_get (sample : Matrix Half) (bits : BitVec 5) (k : Fin 64) :
    (butterflyDct sample bits)[k] = datapathCoefficient sample bits (row k) (col k) := by
  simp [butterflyDct]

@[simp] theorem quantize_get (coef : Matrix Word) (div : Matrix Half) (k : Fin 64) :
    (quantize coef div)[k] = quantLane coef[k] div[k] := by
  simp [quantize]

@[simp] theorem ramp_get (k : Fin 64) :
    ramp[k] = BitVec.ofNat 16 (3 + 2 * ((row k).val + (col k).val)) := by
  simp [ramp]

@[simp] theorem nzmaskOf_getLsb (q : Matrix Word) (k : Fin 64) :
    (nzmaskOf q).getLsb k = decide (q[k] ≠ 0) := by
  simp [nzmaskOf]

/-- The scan finds nothing exactly when every divisor is positive (R150). -/
theorem firstBadDivisor_eq_none (div : Matrix Half) :
    firstBadDivisor div = none ↔ ∀ k : Fin 64, 0 < (div[k]).toInt := by
  simp [firstBadDivisor, List.mem_finRange]

/-- The scan finds the smallest position whose divisor is not positive (R150). -/
theorem firstBadDivisor_eq_some (div : Matrix Half) (k : Fin 64) :
    firstBadDivisor div = some k ↔
      (div[k]).toInt ≤ 0 ∧ ∀ j : Fin 64, j < k → 0 < (div[j]).toInt := by
  unfold firstBadDivisor
  rw [List.find?_eq_some_iff_getElem]
  simp only [decide_eq_true_eq, List.length_finRange, List.getElem_finRange, Bool.not_eq_true',
    decide_eq_false_iff_not, not_le]
  constructor
  · rintro ⟨hk, i, hi, rfl, hj⟩
    exact ⟨hk, fun j hjk => hj j.val hjk⟩
  · rintro ⟨hk, hj⟩
    exact ⟨hk, k.val, k.isLt, rfl, fun j hjk => hj ⟨j, by omega⟩ hjk⟩

@[simp] theorem shapeOk_iff (rows cols : BitVec 4) :
    shapeOk rows cols = true ↔ rows = 8 ∧ cols = 8 := by
  simp [shapeOk]

theorem shapeError_of_ok : shapeError 8 8 = none := rfl

theorem shapeError_of_bad {rows cols : BitVec 4} (h : rows ≠ 8 ∨ cols ≠ 8) :
    shapeError rows cols = some .shape := by
  have : shapeOk rows cols = false := by
    rw [← Bool.not_eq_true, shapeOk_iff]; tauto
  simp [shapeError, this]

theorem divisorError_eq_none {div : Matrix Half} (h : ∀ k : Fin 64, 0 < (div[k]).toInt) :
    divisorError div = none := by
  simp [divisorError, (firstBadDivisor_eq_none div).2 h]

theorem divisorError_eq_some {div : Matrix Half} {k : Fin 64} (hk : (div[k]).toInt ≤ 0)
    (hj : ∀ j : Fin 64, j < k → 0 < (div[j]).toInt) : divisorError div = some (.divisor k) := by
  simp [divisorError, (firstBadDivisor_eq_some div k).2 ⟨hk, hj⟩]

theorem roundHAZ_neg (a b : Int) : roundHAZ (-a) b = -roundHAZ a b := by
  simp [roundHAZ, Int.sign_neg]

/-- The rounded quotient, times the divisor, lies within half a divisor of the dividend. -/
theorem roundHAZ_near (a : Int) {b : Int} (hb : 0 < b) :
    2 * (b * roundHAZ a b - a) ≤ b ∧ -b ≤ 2 * (b * roundHAZ a b - a) := by
  have key : ∀ n : Int, 0 ≤ n → let q := (2 * n + b) / (2 * b)
      2 * (b * q - n) ≤ b ∧ -b ≤ 2 * (b * q - n) := by
    intro n hn q
    have h1 := Int.emod_add_mul_ediv (2 * n + b) (2 * b)
    have h2 := Int.emod_nonneg (2 * n + b) (show 2 * b ≠ 0 by omega)
    have h3 := Int.emod_lt_of_pos (2 * n + b) (show 0 < 2 * b by omega)
    have h4 : 2 * b * ((2 * n + b) / (2 * b)) = 2 * (b * q) := by ring
    omega
  have h := key a.natAbs (by omega)
  unfold roundHAZ
  rcases lt_trichotomy a 0 with ha | rfl | ha
  · rw [Int.sign_eq_neg_one_of_neg ha]
    have : (a.natAbs : Int) = -a := by omega
    rw [this] at h ⊢
    simp only at h
    have h5 : b * (-1 * ((2 * -a + b) / (2 * b))) = -(b * ((2 * -a + b) / (2 * b))) := by ring
    rw [h5]; omega
  · simp; omega
  · rw [Int.sign_eq_one_of_pos ha]
    have : (a.natAbs : Int) = a := by omega
    rw [this] at h ⊢
    simpa using h

end Sys2Proof.Machine
end

