-- ==== Sys2Proof/Laws/Cosine.lean ====
section
/-! SUPPORT. Rational bounds of cos(jπ/16) for j = 1..7, and the distance of the ROM magnitudes (R47) from the products they round. -/

namespace Sys2Proof.Machine

/-- The square of a cosine from the cosine of the double angle, over the grid of π/16. -/
theorem cos_grid_sq (a : ℝ) :
    Real.cos (a * Real.pi / 16) ^ 2 = 1 / 2 + Real.cos (2 * a * Real.pi / 16) / 2 := by
  rw [Real.cos_sq, show 2 * (a * Real.pi / 16) = 2 * a * Real.pi / 16 by ring]

/-- The cosines of the first quadrant. -/
theorem cos_grid_nonneg {a : ℝ} (h0 : 0 ≤ a) (h : a ≤ 8) : 0 ≤ Real.cos (a * Real.pi / 16) := by
  have := Real.pi_pos
  apply Real.cos_nonneg_of_neg_pi_div_two_le_of_le <;> nlinarith

/-- A nonnegative number lies between two others when its square lies between their squares. -/
theorem between_of_sq {c lo hi : ℝ} (h0 : 0 ≤ c) (hl : 0 ≤ lo) (hh : 0 ≤ hi) (h1 : lo ^ 2 ≤ c ^ 2) (h2 : c ^ 2 ≤ hi ^ 2) :
    lo ≤ c ∧ c ≤ hi :=
  ⟨(pow_le_pow_iff_left₀ hl h0 two_ne_zero).1 h1, (pow_le_pow_iff_left₀ h0 hh two_ne_zero).1 h2⟩

/-- Below `10^15·cos(jπ/16)`, for j = 1..7. -/
def cosLow (j : Nat) : Nat :=
  ([0, 980785280403222, 923879532511284, 831469612302525, 707106781186546, 555570233019582, 382683432365085, 195090322016088] : List Nat).getD j 0

/-- Above `10^15·cos(jπ/16)`, for j = 1..7. -/
def cosHigh (j : Nat) : Nat :=
  ([0, 980785280403239, 923879532511289, 831469612302566, 707106781186549, 555570233019623, 382683432365094, 195090322016169] : List Nat).getD j 0

/-- The bounds hold: each from the bound of the double angle. -/
theorem cos_grid_bounds (j : Nat) (h1 : 1 ≤ j) (h7 : j ≤ 7) :
    (cosLow j : ℝ) / 10 ^ 15 ≤ Real.cos ((j : ℝ) * Real.pi / 16) ∧
    Real.cos ((j : ℝ) * Real.pi / 16) ≤ (cosHigh j : ℝ) / 10 ^ 15 := by
  have n (a : ℝ) (h0 : 0 ≤ a) (h : a ≤ 8) := cos_grid_nonneg h0 h
  have flip (a : ℝ) : Real.cos ((16 - a) * Real.pi / 16) = -Real.cos (a * Real.pi / 16) := by
    rw [show (16 - a) * Real.pi / 16 = Real.pi - a * Real.pi / 16 by ring, Real.cos_pi_sub]
  have c8 : Real.cos (8 * Real.pi / 16) = 0 := by
    rw [show 8 * Real.pi / 16 = Real.pi / 2 by ring, Real.cos_pi_div_two]
  have s4 := cos_grid_sq 4; norm_num at s4; rw [c8] at s4
  have b4 := between_of_sq (lo := 707106781186546 / 10 ^ 15) (hi := 707106781186549 / 10 ^ 15)
    (n 4 (by norm_num) (by norm_num)) (by norm_num) (by norm_num) (by rw [s4]; norm_num) (by rw [s4]; norm_num)
  have s2 := cos_grid_sq 2; norm_num at s2
  have b2 := between_of_sq (lo := 923879532511284 / 10 ^ 15) (hi := 923879532511289 / 10 ^ 15)
    (n 2 (by norm_num) (by norm_num)) (by norm_num) (by norm_num) (by rw [s2]; linarith) (by rw [s2]; linarith)
  have s6 := cos_grid_sq 6; rw [show (2 * 6 : ℝ) = 16 - 4 by norm_num, flip] at s6
  have b6 := between_of_sq (lo := 382683432365085 / 10 ^ 15) (hi := 382683432365094 / 10 ^ 15)
    (n 6 (by norm_num) (by norm_num)) (by norm_num) (by norm_num) (by rw [s6]; linarith) (by rw [s6]; linarith)
  have s1 := cos_grid_sq 1; rw [mul_one] at s1
  have b1 := between_of_sq (lo := 980785280403222 / 10 ^ 15) (hi := 980785280403239 / 10 ^ 15)
    (n 1 (by norm_num) (by norm_num)) (by norm_num) (by norm_num) (by rw [s1]; linarith) (by rw [s1]; linarith)
  have s7 := cos_grid_sq 7; rw [show (2 * 7 : ℝ) = 16 - 2 by norm_num, flip] at s7
  have b7 := between_of_sq (lo := 195090322016088 / 10 ^ 15) (hi := 195090322016169 / 10 ^ 15)
    (n 7 (by norm_num) (by norm_num)) (by norm_num) (by norm_num) (by rw [s7]; linarith) (by rw [s7]; linarith)
  have s3 := cos_grid_sq 3; norm_num at s3
  have b3 := between_of_sq (lo := 831469612302525 / 10 ^ 15) (hi := 831469612302566 / 10 ^ 15)
    (n 3 (by norm_num) (by norm_num)) (by norm_num) (by norm_num) (by rw [s3]; linarith) (by rw [s3]; linarith)
  have s5 := cos_grid_sq 5; rw [show (2 * 5 : ℝ) = 16 - 6 by norm_num, flip] at s5
  have b5 := between_of_sq (lo := 555570233019582 / 10 ^ 15) (hi := 555570233019623 / 10 ^ 15)
    (n 5 (by norm_num) (by norm_num)) (by norm_num) (by norm_num) (by rw [s5]; linarith) (by rw [s5]; linarith)
  interval_cases j <;> simp only [cosLow, cosHigh, List.getD_cons_succ, List.getD_cons_zero, Nat.cast_ofNat, Nat.cast_one] <;> assumption

/-- R45, R47: a magnitude is the rounded product, and no product is near a tie. -/
theorem magnitude_near (i j : Nat) (hi1 : 1 ≤ i) (hi7 : i ≤ 7) (hj1 : 1 ≤ j) (hj7 : j ≤ 7) :
    |(magnitude i j : ℝ) - 2 ^ 30 * (Real.cos ((i : ℝ) * Real.pi / 16) * Real.cos ((j : ℝ) * Real.pi / 16) / 4)| < 1 / 2 - 1 / 10 ^ 6 := by
  obtain ⟨a1, a2⟩ := cos_grid_bounds i hi1 hi7
  obtain ⟨b1, b2⟩ := cos_grid_bounds j hj1 hj7
  have pa : (0 : ℝ) ≤ cosLow i / 10 ^ 15 := by positivity
  have pb : (0 : ℝ) ≤ cosLow j / 10 ^ 15 := by positivity
  have l := mul_le_mul a1 b1 pb (pa.trans a1)
  have u := mul_le_mul a2 b2 (pb.trans b1) (pa.trans (a1.trans a2))
  generalize Real.cos ((i : ℝ) * Real.pi / 16) * Real.cos ((j : ℝ) * Real.pi / 16) = p at l u ⊢
  clear a1 a2 b1 b2 pa pb
  have key : ∀ i j : Fin 8, 1 ≤ i → 1 ≤ j →
      2 * (4 * magnitude i j * 10 ^ 30 - 2 ^ 30 * (cosLow i * cosLow j : Nat)) < 4 * 10 ^ 30 - 8 * 10 ^ 24 ∧
      2 * (2 ^ 30 * (cosHigh i * cosHigh j : Nat) - 4 * magnitude i j * 10 ^ 30) < 4 * 10 ^ 30 - 8 * 10 ^ 24 := by decide +kernel
  obtain ⟨k1, k2⟩ := key ⟨i, by omega⟩ ⟨j, by omega⟩ hi1 hj1
  simp only at k1 k2
  generalize magnitude i j = M at *
  have k1' : (2 * (4 * M * 10 ^ 30 - 2 ^ 30 * ((cosLow i : ℝ) * cosLow j)) : ℝ) < 4 * 10 ^ 30 - 8 * 10 ^ 24 := by exact_mod_cast k1
  have k2' : (2 * (2 ^ 30 * ((cosHigh i : ℝ) * cosHigh j) - 4 * M * 10 ^ 30) : ℝ) < 4 * 10 ^ 30 - 8 * 10 ^ 24 := by exact_mod_cast k2
  have e1 : (cosLow i : ℝ) / 10 ^ 15 * (cosLow j / 10 ^ 15) = cosLow i * cosLow j / 10 ^ 30 := by ring
  have e2 : (cosHigh i : ℝ) / 10 ^ 15 * (cosHigh j / 10 ^ 15) = cosHigh i * cosHigh j / 10 ^ 30 := by ring
  rw [e1] at l; rw [e2] at u
  rw [abs_lt]
  constructor <;> linarith
end Sys2Proof.Machine
end

