-- ==== Sys2Proof/Laws/Decode.lean ====
section
/-! SUPPORT. The decoder as a chain of tests, and the fields of a word. -/

namespace Sys2Proof

theorem and_full_mask (w : Word) : w &&& 0xFFFFFFFF = w := by
  have : (0xFFFFFFFF : Word) = BitVec.allOnes 32 := by decide
  rw [this, BitVec.and_allOnes]

/-- Decoding tests the rows of R103 in order. -/
theorem decode_eq (w : Word) :
    decode w =
      if w = 0 then .ok .nop
      else if w &&& 0xFFFF00FF = 1 then .ok (.fdct (fieldRows w) (fieldCols w))
      else if w &&& 0xFFFF00FF = 2 then .ok (.quant (fieldRows w) (fieldCols w))
      else if w &&& 0xFFFF00FF = 3 then .ok (.fdctq (fieldRows w) (fieldCols w))
      else if w = 4 then .ok (.lddiv (fieldTbl w))
      else .error (illegalReason w) := by
  unfold decode opcodeMap
  simp only [List.find?_cons, List.find?_nil, and_full_mask, Bool.beq_eq_decide_eq]
  split_ifs with h0 h1 h2 h3 h4
  · simp only [h0]; rfl
  · simp only [h0, h1, decide_true, decide_false]
  · simp only [h0, h2, decide_true, decide_false]; rfl
  · simp only [h0, h3, decide_true, decide_false]; rfl
  · simp only [h4]; rfl
  · simp only [h0, h1, h2, h3, h4, decide_false]

/-- A word is its five fields, RSV first. -/
theorem word_eq_fields (w : Word) :
    w = fieldRsv w ++ fieldTbl w ++ fieldCols w ++ fieldRows w ++ fieldOp w := by
  apply BitVec.eq_of_getLsbD_eq
  intro i hi
  simp only [fieldRsv, fieldTbl, fieldCols, fieldRows, fieldOp, BitVec.getLsbD_append,
    BitVec.getLsbD_extractLsb']
  interval_cases i <;> simp

/-- The mask of the rows with a free shape keeps OP, TBL and RSV. -/
theorem masked_eq_iff (w : Word) (m : BitVec 8) :
    w &&& 0xFFFF00FF = m.setWidth 32 ↔ fieldOp w = m ∧ fieldTbl w = 0 ∧ fieldRsv w = 0 := by
  constructor
  · intro h
    refine ⟨?_, ?_, ?_⟩ <;> apply BitVec.eq_of_getLsbD_eq <;> intro i hi
    · have := congrArg (fun v : Word => v.getLsbD i) h
      interval_cases i <;> simpa [fieldOp, BitVec.getLsbD_and] using this
    · have := congrArg (fun v : Word => v.getLsbD (16 + i)) h
      interval_cases i <;> simpa [fieldTbl, BitVec.getLsbD_and] using this
    · have := congrArg (fun v : Word => v.getLsbD (20 + i)) h
      interval_cases i <;> simpa [fieldRsv, BitVec.getLsbD_and] using this
  · rintro ⟨h1, h2, h3⟩
    rw [word_eq_fields w, h1, h2, h3]
    apply BitVec.eq_of_getLsbD_eq
    intro i hi
    simp only [BitVec.getLsbD_append, BitVec.getLsbD_and, BitVec.getLsbD_setWidth]
    interval_cases i <;> simp

end Sys2Proof
end

