-- ==== Sys2Proof/Laws/State.lean ====
section
/-! SUPPORT. One lemma for each field of State and each named update: what the field holds afterwards. True by unfolding the update
once; no later proof needs to. -/

namespace Sys2Proof.Machine

@[simp] theorem State.writeCtrl_ie (w : Word) (s : State) : (s.writeCtrl w).ie = w.getLsbD 0 := rfl
@[simp] theorem State.writeCtrl_busy (w : Word) (s : State) : (s.writeCtrl w).busy = s.busy := rfl
@[simp] theorem State.writeCtrl_done (w : Word) (s : State) : (s.writeCtrl w).done = s.done := rfl
@[simp] theorem State.writeCtrl_err (w : Word) (s : State) : (s.writeCtrl w).err = s.err := rfl
@[simp] theorem State.writeCtrl_ovr (w : Word) (s : State) : (s.writeCtrl w).ovr = s.ovr := rfl
@[simp] theorem State.writeCtrl_bwe (w : Word) (s : State) : (s.writeCtrl w).bwe = s.bwe := rfl
@[simp] theorem State.writeCtrl_cmdlast (w : Word) (s : State) : (s.writeCtrl w).cmdlast = s.cmdlast := rfl
@[simp] theorem State.writeCtrl_errCode (w : Word) (s : State) : (s.writeCtrl w).errCode = s.errCode := rfl
@[simp] theorem State.writeCtrl_errPos (w : Word) (s : State) : (s.writeCtrl w).errPos = s.errPos := rfl
@[simp] theorem State.writeCtrl_errOp (w : Word) (s : State) : (s.writeCtrl w).errOp = s.errOp := rfl
@[simp] theorem State.writeCtrl_bits (w : Word) (s : State) : (s.writeCtrl w).bits = s.bits := rfl
@[simp] theorem State.writeCtrl_nzmask (w : Word) (s : State) : (s.writeCtrl w).nzmask = s.nzmask := rfl
@[simp] theorem State.writeCtrl_sample (w : Word) (s : State) : (s.writeCtrl w).sample = s.sample := rfl
@[simp] theorem State.writeCtrl_div (w : Word) (s : State) : (s.writeCtrl w).div = s.div := rfl
@[simp] theorem State.writeCtrl_coef (w : Word) (s : State) : (s.writeCtrl w).coef = s.coef := rfl
@[simp] theorem State.writeCtrl_qout (w : Word) (s : State) : (s.writeCtrl w).qout = s.qout := rfl
@[simp] theorem State.writeCtrl_pending (w : Word) (s : State) : (s.writeCtrl w).pending = s.pending := rfl
@[simp] theorem State.writeCtrl_t (w : Word) (s : State) : (s.writeCtrl w).t = s.t := rfl
@[simp] theorem State.writeCtrl_hostProg (w : Word) (s : State) : (s.writeCtrl w).hostProg = s.hostProg := rfl
@[simp] theorem State.writeCtrl_hostPc (w : Word) (s : State) : (s.writeCtrl w).hostPc = s.hostPc := rfl
@[simp] theorem State.writeCtrl_turns (w : Word) (s : State) : (s.writeCtrl w).turns = s.turns := rfl
@[simp] theorem State.writeCtrl_draws (w : Word) (s : State) : (s.writeCtrl w).draws = s.draws := rfl
@[simp] theorem State.writeCtrl_rdata (w : Word) (s : State) : (s.writeCtrl w).rdata = s.rdata := rfl
@[simp] theorem State.writeCtrl_inst (w : Word) (s : State) : (s.writeCtrl w).inst = s.inst := rfl

@[simp] theorem State.clearStatus_ie (w : Word) (s : State) : (s.clearStatus w).ie = s.ie := rfl
@[simp] theorem State.clearStatus_busy (w : Word) (s : State) : (s.clearStatus w).busy = s.busy := rfl
@[simp] theorem State.clearStatus_done (w : Word) (s : State) : (s.clearStatus w).done = (s.done && !w.getLsbD 1) := rfl
@[simp] theorem State.clearStatus_err (w : Word) (s : State) : (s.clearStatus w).err = (s.err && !w.getLsbD 2) := rfl
@[simp] theorem State.clearStatus_ovr (w : Word) (s : State) : (s.clearStatus w).ovr = (s.ovr && !w.getLsbD 3) := rfl
@[simp] theorem State.clearStatus_bwe (w : Word) (s : State) : (s.clearStatus w).bwe = (s.bwe && !w.getLsbD 4) := rfl
@[simp] theorem State.clearStatus_cmdlast (w : Word) (s : State) : (s.clearStatus w).cmdlast = s.cmdlast := rfl
@[simp] theorem State.clearStatus_errCode (w : Word) (s : State) : (s.clearStatus w).errCode = s.errCode := rfl
@[simp] theorem State.clearStatus_errPos (w : Word) (s : State) : (s.clearStatus w).errPos = s.errPos := rfl
@[simp] theorem State.clearStatus_errOp (w : Word) (s : State) : (s.clearStatus w).errOp = s.errOp := rfl
@[simp] theorem State.clearStatus_bits (w : Word) (s : State) : (s.clearStatus w).bits = s.bits := rfl
@[simp] theorem State.clearStatus_nzmask (w : Word) (s : State) : (s.clearStatus w).nzmask = s.nzmask := rfl
@[simp] theorem State.clearStatus_sample (w : Word) (s : State) : (s.clearStatus w).sample = s.sample := rfl
@[simp] theorem State.clearStatus_div (w : Word) (s : State) : (s.clearStatus w).div = s.div := rfl
@[simp] theorem State.clearStatus_coef (w : Word) (s : State) : (s.clearStatus w).coef = s.coef := rfl
@[simp] theorem State.clearStatus_qout (w : Word) (s : State) : (s.clearStatus w).qout = s.qout := rfl
@[simp] theorem State.clearStatus_pending (w : Word) (s : State) : (s.clearStatus w).pending = s.pending := rfl
@[simp] theorem State.clearStatus_t (w : Word) (s : State) : (s.clearStatus w).t = s.t := rfl
@[simp] theorem State.clearStatus_hostProg (w : Word) (s : State) : (s.clearStatus w).hostProg = s.hostProg := rfl
@[simp] theorem State.clearStatus_hostPc (w : Word) (s : State) : (s.clearStatus w).hostPc = s.hostPc := rfl
@[simp] theorem State.clearStatus_turns (w : Word) (s : State) : (s.clearStatus w).turns = s.turns := rfl
@[simp] theorem State.clearStatus_draws (w : Word) (s : State) : (s.clearStatus w).draws = s.draws := rfl
@[simp] theorem State.clearStatus_rdata (w : Word) (s : State) : (s.clearStatus w).rdata = s.rdata := rfl
@[simp] theorem State.clearStatus_inst (w : Word) (s : State) : (s.clearStatus w).inst = s.inst := rfl

@[simp] theorem State.setOvr_ie (s : State) : (s.setOvr).ie = s.ie := rfl
@[simp] theorem State.setOvr_busy (s : State) : (s.setOvr).busy = s.busy := rfl
@[simp] theorem State.setOvr_done (s : State) : (s.setOvr).done = s.done := rfl
@[simp] theorem State.setOvr_err (s : State) : (s.setOvr).err = s.err := rfl
@[simp] theorem State.setOvr_ovr (s : State) : (s.setOvr).ovr = true := rfl
@[simp] theorem State.setOvr_bwe (s : State) : (s.setOvr).bwe = s.bwe := rfl
@[simp] theorem State.setOvr_cmdlast (s : State) : (s.setOvr).cmdlast = s.cmdlast := rfl
@[simp] theorem State.setOvr_errCode (s : State) : (s.setOvr).errCode = s.errCode := rfl
@[simp] theorem State.setOvr_errPos (s : State) : (s.setOvr).errPos = s.errPos := rfl
@[simp] theorem State.setOvr_errOp (s : State) : (s.setOvr).errOp = s.errOp := rfl
@[simp] theorem State.setOvr_bits (s : State) : (s.setOvr).bits = s.bits := rfl
@[simp] theorem State.setOvr_nzmask (s : State) : (s.setOvr).nzmask = s.nzmask := rfl
@[simp] theorem State.setOvr_sample (s : State) : (s.setOvr).sample = s.sample := rfl
@[simp] theorem State.setOvr_div (s : State) : (s.setOvr).div = s.div := rfl
@[simp] theorem State.setOvr_coef (s : State) : (s.setOvr).coef = s.coef := rfl
@[simp] theorem State.setOvr_qout (s : State) : (s.setOvr).qout = s.qout := rfl
@[simp] theorem State.setOvr_pending (s : State) : (s.setOvr).pending = s.pending := rfl
@[simp] theorem State.setOvr_t (s : State) : (s.setOvr).t = s.t := rfl
@[simp] theorem State.setOvr_hostProg (s : State) : (s.setOvr).hostProg = s.hostProg := rfl
@[simp] theorem State.setOvr_hostPc (s : State) : (s.setOvr).hostPc = s.hostPc := rfl
@[simp] theorem State.setOvr_turns (s : State) : (s.setOvr).turns = s.turns := rfl
@[simp] theorem State.setOvr_draws (s : State) : (s.setOvr).draws = s.draws := rfl
@[simp] theorem State.setOvr_rdata (s : State) : (s.setOvr).rdata = s.rdata := rfl
@[simp] theorem State.setOvr_inst (s : State) : (s.setOvr).inst = s.inst := rfl

@[simp] theorem State.setBwe_ie (s : State) : (s.setBwe).ie = s.ie := rfl
@[simp] theorem State.setBwe_busy (s : State) : (s.setBwe).busy = s.busy := rfl
@[simp] theorem State.setBwe_done (s : State) : (s.setBwe).done = s.done := rfl
@[simp] theorem State.setBwe_err (s : State) : (s.setBwe).err = s.err := rfl
@[simp] theorem State.setBwe_ovr (s : State) : (s.setBwe).ovr = s.ovr := rfl
@[simp] theorem State.setBwe_bwe (s : State) : (s.setBwe).bwe = true := rfl
@[simp] theorem State.setBwe_cmdlast (s : State) : (s.setBwe).cmdlast = s.cmdlast := rfl
@[simp] theorem State.setBwe_errCode (s : State) : (s.setBwe).errCode = s.errCode := rfl
@[simp] theorem State.setBwe_errPos (s : State) : (s.setBwe).errPos = s.errPos := rfl
@[simp] theorem State.setBwe_errOp (s : State) : (s.setBwe).errOp = s.errOp := rfl
@[simp] theorem State.setBwe_bits (s : State) : (s.setBwe).bits = s.bits := rfl
@[simp] theorem State.setBwe_nzmask (s : State) : (s.setBwe).nzmask = s.nzmask := rfl
@[simp] theorem State.setBwe_sample (s : State) : (s.setBwe).sample = s.sample := rfl
@[simp] theorem State.setBwe_div (s : State) : (s.setBwe).div = s.div := rfl
@[simp] theorem State.setBwe_coef (s : State) : (s.setBwe).coef = s.coef := rfl
@[simp] theorem State.setBwe_qout (s : State) : (s.setBwe).qout = s.qout := rfl
@[simp] theorem State.setBwe_pending (s : State) : (s.setBwe).pending = s.pending := rfl
@[simp] theorem State.setBwe_t (s : State) : (s.setBwe).t = s.t := rfl
@[simp] theorem State.setBwe_hostProg (s : State) : (s.setBwe).hostProg = s.hostProg := rfl
@[simp] theorem State.setBwe_hostPc (s : State) : (s.setBwe).hostPc = s.hostPc := rfl
@[simp] theorem State.setBwe_turns (s : State) : (s.setBwe).turns = s.turns := rfl
@[simp] theorem State.setBwe_draws (s : State) : (s.setBwe).draws = s.draws := rfl
@[simp] theorem State.setBwe_rdata (s : State) : (s.setBwe).rdata = s.rdata := rfl
@[simp] theorem State.setBwe_inst (s : State) : (s.setBwe).inst = s.inst := rfl

@[simp] theorem State.accept_ie (w : Word) (s : State) : (s.accept w).ie = s.ie := rfl
@[simp] theorem State.accept_busy (w : Word) (s : State) : (s.accept w).busy = true := rfl
@[simp] theorem State.accept_done (w : Word) (s : State) : (s.accept w).done = s.done := rfl
@[simp] theorem State.accept_err (w : Word) (s : State) : (s.accept w).err = s.err := rfl
@[simp] theorem State.accept_ovr (w : Word) (s : State) : (s.accept w).ovr = s.ovr := rfl
@[simp] theorem State.accept_bwe (w : Word) (s : State) : (s.accept w).bwe = s.bwe := rfl
@[simp] theorem State.accept_cmdlast (w : Word) (s : State) : (s.accept w).cmdlast = w := rfl
@[simp] theorem State.accept_errCode (w : Word) (s : State) : (s.accept w).errCode = s.errCode := rfl
@[simp] theorem State.accept_errPos (w : Word) (s : State) : (s.accept w).errPos = s.errPos := rfl
@[simp] theorem State.accept_errOp (w : Word) (s : State) : (s.accept w).errOp = s.errOp := rfl
@[simp] theorem State.accept_bits (w : Word) (s : State) : (s.accept w).bits = s.bits := rfl
@[simp] theorem State.accept_nzmask (w : Word) (s : State) : (s.accept w).nzmask = s.nzmask := rfl
@[simp] theorem State.accept_sample (w : Word) (s : State) : (s.accept w).sample = s.sample := rfl
@[simp] theorem State.accept_div (w : Word) (s : State) : (s.accept w).div = s.div := rfl
@[simp] theorem State.accept_coef (w : Word) (s : State) : (s.accept w).coef = s.coef := rfl
@[simp] theorem State.accept_qout (w : Word) (s : State) : (s.accept w).qout = s.qout := rfl
@[simp] theorem State.accept_pending (w : Word) (s : State) : (s.accept w).pending = some w := rfl
@[simp] theorem State.accept_t (w : Word) (s : State) : (s.accept w).t = s.t := rfl
@[simp] theorem State.accept_hostProg (w : Word) (s : State) : (s.accept w).hostProg = s.hostProg := rfl
@[simp] theorem State.accept_hostPc (w : Word) (s : State) : (s.accept w).hostPc = s.hostPc := rfl
@[simp] theorem State.accept_turns (w : Word) (s : State) : (s.accept w).turns = s.turns := rfl
@[simp] theorem State.accept_draws (w : Word) (s : State) : (s.accept w).draws = s.draws := rfl
@[simp] theorem State.accept_rdata (w : Word) (s : State) : (s.accept w).rdata = s.rdata := rfl
@[simp] theorem State.accept_inst (w : Word) (s : State) : (s.accept w).inst = s.inst := rfl

@[simp] theorem State.complete_ie (s : State) : (s.complete).ie = s.ie := rfl
@[simp] theorem State.complete_busy (s : State) : (s.complete).busy = false := rfl
@[simp] theorem State.complete_done (s : State) : (s.complete).done = true := rfl
@[simp] theorem State.complete_err (s : State) : (s.complete).err = s.err := rfl
@[simp] theorem State.complete_ovr (s : State) : (s.complete).ovr = s.ovr := rfl
@[simp] theorem State.complete_bwe (s : State) : (s.complete).bwe = s.bwe := rfl
@[simp] theorem State.complete_cmdlast (s : State) : (s.complete).cmdlast = s.cmdlast := rfl
@[simp] theorem State.complete_errCode (s : State) : (s.complete).errCode = s.errCode := rfl
@[simp] theorem State.complete_errPos (s : State) : (s.complete).errPos = s.errPos := rfl
@[simp] theorem State.complete_errOp (s : State) : (s.complete).errOp = s.errOp := rfl
@[simp] theorem State.complete_bits (s : State) : (s.complete).bits = s.bits := rfl
@[simp] theorem State.complete_nzmask (s : State) : (s.complete).nzmask = s.nzmask := rfl
@[simp] theorem State.complete_sample (s : State) : (s.complete).sample = s.sample := rfl
@[simp] theorem State.complete_div (s : State) : (s.complete).div = s.div := rfl
@[simp] theorem State.complete_coef (s : State) : (s.complete).coef = s.coef := rfl
@[simp] theorem State.complete_qout (s : State) : (s.complete).qout = s.qout := rfl
@[simp] theorem State.complete_pending (s : State) : (s.complete).pending = none := rfl
@[simp] theorem State.complete_t (s : State) : (s.complete).t = s.t := rfl
@[simp] theorem State.complete_hostProg (s : State) : (s.complete).hostProg = s.hostProg := rfl
@[simp] theorem State.complete_hostPc (s : State) : (s.complete).hostPc = s.hostPc := rfl
@[simp] theorem State.complete_turns (s : State) : (s.complete).turns = s.turns := rfl
@[simp] theorem State.complete_draws (s : State) : (s.complete).draws = s.draws := rfl
@[simp] theorem State.complete_rdata (s : State) : (s.complete).rdata = s.rdata := rfl
@[simp] theorem State.complete_inst (s : State) : (s.complete).inst = s.inst := rfl

@[simp] theorem State.fail_ie (e : CommandError) (op : BitVec 8) (s : State) : (s.fail e op).ie = s.ie := rfl
@[simp] theorem State.fail_busy (e : CommandError) (op : BitVec 8) (s : State) : (s.fail e op).busy = false := rfl
@[simp] theorem State.fail_done (e : CommandError) (op : BitVec 8) (s : State) : (s.fail e op).done = true := rfl
@[simp] theorem State.fail_err (e : CommandError) (op : BitVec 8) (s : State) : (s.fail e op).err = true := rfl
@[simp] theorem State.fail_ovr (e : CommandError) (op : BitVec 8) (s : State) : (s.fail e op).ovr = s.ovr := rfl
@[simp] theorem State.fail_bwe (e : CommandError) (op : BitVec 8) (s : State) : (s.fail e op).bwe = s.bwe := rfl
@[simp] theorem State.fail_cmdlast (e : CommandError) (op : BitVec 8) (s : State) : (s.fail e op).cmdlast = s.cmdlast := rfl
@[simp] theorem State.fail_errCode (e : CommandError) (op : BitVec 8) (s : State) : (s.fail e op).errCode = e.code := rfl
@[simp] theorem State.fail_errPos (e : CommandError) (op : BitVec 8) (s : State) : (s.fail e op).errPos = e.pos := rfl
@[simp] theorem State.fail_errOp (e : CommandError) (op : BitVec 8) (s : State) : (s.fail e op).errOp = op := rfl
@[simp] theorem State.fail_bits (e : CommandError) (op : BitVec 8) (s : State) : (s.fail e op).bits = s.bits := rfl
@[simp] theorem State.fail_nzmask (e : CommandError) (op : BitVec 8) (s : State) : (s.fail e op).nzmask = s.nzmask := rfl
@[simp] theorem State.fail_sample (e : CommandError) (op : BitVec 8) (s : State) : (s.fail e op).sample = s.sample := rfl
@[simp] theorem State.fail_div (e : CommandError) (op : BitVec 8) (s : State) : (s.fail e op).div = s.div := rfl
@[simp] theorem State.fail_coef (e : CommandError) (op : BitVec 8) (s : State) : (s.fail e op).coef = s.coef := rfl
@[simp] theorem State.fail_qout (e : CommandError) (op : BitVec 8) (s : State) : (s.fail e op).qout = s.qout := rfl
@[simp] theorem State.fail_pending (e : CommandError) (op : BitVec 8) (s : State) : (s.fail e op).pending = none := rfl
@[simp] theorem State.fail_t (e : CommandError) (op : BitVec 8) (s : State) : (s.fail e op).t = s.t := rfl
@[simp] theorem State.fail_hostProg (e : CommandError) (op : BitVec 8) (s : State) : (s.fail e op).hostProg = s.hostProg := rfl
@[simp] theorem State.fail_hostPc (e : CommandError) (op : BitVec 8) (s : State) : (s.fail e op).hostPc = s.hostPc := rfl
@[simp] theorem State.fail_turns (e : CommandError) (op : BitVec 8) (s : State) : (s.fail e op).turns = s.turns := rfl
@[simp] theorem State.fail_draws (e : CommandError) (op : BitVec 8) (s : State) : (s.fail e op).draws = s.draws := rfl
@[simp] theorem State.fail_rdata (e : CommandError) (op : BitVec 8) (s : State) : (s.fail e op).rdata = s.rdata := rfl
@[simp] theorem State.fail_inst (e : CommandError) (op : BitVec 8) (s : State) : (s.fail e op).inst = s.inst := rfl

@[simp] theorem State.quantized_ie (s : State) : (s.quantized).ie = s.ie := rfl
@[simp] theorem State.quantized_busy (s : State) : (s.quantized).busy = s.busy := rfl
@[simp] theorem State.quantized_done (s : State) : (s.quantized).done = s.done := rfl
@[simp] theorem State.quantized_err (s : State) : (s.quantized).err = s.err := rfl
@[simp] theorem State.quantized_ovr (s : State) : (s.quantized).ovr = s.ovr := rfl
@[simp] theorem State.quantized_bwe (s : State) : (s.quantized).bwe = s.bwe := rfl
@[simp] theorem State.quantized_cmdlast (s : State) : (s.quantized).cmdlast = s.cmdlast := rfl
@[simp] theorem State.quantized_errCode (s : State) : (s.quantized).errCode = s.errCode := rfl
@[simp] theorem State.quantized_errPos (s : State) : (s.quantized).errPos = s.errPos := rfl
@[simp] theorem State.quantized_errOp (s : State) : (s.quantized).errOp = s.errOp := rfl
@[simp] theorem State.quantized_bits (s : State) : (s.quantized).bits = s.bits := rfl
@[simp] theorem State.quantized_nzmask (s : State) : (s.quantized).nzmask = nzmaskOf (quantize s.coef s.div) := rfl
@[simp] theorem State.quantized_sample (s : State) : (s.quantized).sample = s.sample := rfl
@[simp] theorem State.quantized_div (s : State) : (s.quantized).div = s.div := rfl
@[simp] theorem State.quantized_coef (s : State) : (s.quantized).coef = s.coef := rfl
@[simp] theorem State.quantized_qout (s : State) : (s.quantized).qout = quantize s.coef s.div := rfl
@[simp] theorem State.quantized_pending (s : State) : (s.quantized).pending = s.pending := rfl
@[simp] theorem State.quantized_t (s : State) : (s.quantized).t = s.t := rfl
@[simp] theorem State.quantized_hostProg (s : State) : (s.quantized).hostProg = s.hostProg := rfl
@[simp] theorem State.quantized_hostPc (s : State) : (s.quantized).hostPc = s.hostPc := rfl
@[simp] theorem State.quantized_turns (s : State) : (s.quantized).turns = s.turns := rfl
@[simp] theorem State.quantized_draws (s : State) : (s.quantized).draws = s.draws := rfl
@[simp] theorem State.quantized_rdata (s : State) : (s.quantized).rdata = s.rdata := rfl
@[simp] theorem State.quantized_inst (s : State) : (s.quantized).inst = s.inst := rfl

@[simp] theorem State.advanceHost_ie (s : State) : (s.advanceHost).ie = s.ie := rfl
@[simp] theorem State.advanceHost_busy (s : State) : (s.advanceHost).busy = s.busy := rfl
@[simp] theorem State.advanceHost_done (s : State) : (s.advanceHost).done = s.done := rfl
@[simp] theorem State.advanceHost_err (s : State) : (s.advanceHost).err = s.err := rfl
@[simp] theorem State.advanceHost_ovr (s : State) : (s.advanceHost).ovr = s.ovr := rfl
@[simp] theorem State.advanceHost_bwe (s : State) : (s.advanceHost).bwe = s.bwe := rfl
@[simp] theorem State.advanceHost_cmdlast (s : State) : (s.advanceHost).cmdlast = s.cmdlast := rfl
@[simp] theorem State.advanceHost_errCode (s : State) : (s.advanceHost).errCode = s.errCode := rfl
@[simp] theorem State.advanceHost_errPos (s : State) : (s.advanceHost).errPos = s.errPos := rfl
@[simp] theorem State.advanceHost_errOp (s : State) : (s.advanceHost).errOp = s.errOp := rfl
@[simp] theorem State.advanceHost_bits (s : State) : (s.advanceHost).bits = s.bits := rfl
@[simp] theorem State.advanceHost_nzmask (s : State) : (s.advanceHost).nzmask = s.nzmask := rfl
@[simp] theorem State.advanceHost_sample (s : State) : (s.advanceHost).sample = s.sample := rfl
@[simp] theorem State.advanceHost_div (s : State) : (s.advanceHost).div = s.div := rfl
@[simp] theorem State.advanceHost_coef (s : State) : (s.advanceHost).coef = s.coef := rfl
@[simp] theorem State.advanceHost_qout (s : State) : (s.advanceHost).qout = s.qout := rfl
@[simp] theorem State.advanceHost_pending (s : State) : (s.advanceHost).pending = s.pending := rfl
@[simp] theorem State.advanceHost_t (s : State) : (s.advanceHost).t = s.t := rfl
@[simp] theorem State.advanceHost_hostProg (s : State) : (s.advanceHost).hostProg = s.hostProg := rfl
@[simp] theorem State.advanceHost_hostPc (s : State) : (s.advanceHost).hostPc = s.hostPc + 1 := rfl
@[simp] theorem State.advanceHost_turns (s : State) : (s.advanceHost).turns = s.turns := rfl
@[simp] theorem State.advanceHost_draws (s : State) : (s.advanceHost).draws = s.draws := rfl
@[simp] theorem State.advanceHost_rdata (s : State) : (s.advanceHost).rdata = s.rdata := rfl
@[simp] theorem State.advanceHost_inst (s : State) : (s.advanceHost).inst = s.inst := rfl

@[simp] theorem State.setT_ie (r : Fin 8) (w : Word) (s : State) : (s.setT r w).ie = s.ie := rfl
@[simp] theorem State.setT_busy (r : Fin 8) (w : Word) (s : State) : (s.setT r w).busy = s.busy := rfl
@[simp] theorem State.setT_done (r : Fin 8) (w : Word) (s : State) : (s.setT r w).done = s.done := rfl
@[simp] theorem State.setT_err (r : Fin 8) (w : Word) (s : State) : (s.setT r w).err = s.err := rfl
@[simp] theorem State.setT_ovr (r : Fin 8) (w : Word) (s : State) : (s.setT r w).ovr = s.ovr := rfl
@[simp] theorem State.setT_bwe (r : Fin 8) (w : Word) (s : State) : (s.setT r w).bwe = s.bwe := rfl
@[simp] theorem State.setT_cmdlast (r : Fin 8) (w : Word) (s : State) : (s.setT r w).cmdlast = s.cmdlast := rfl
@[simp] theorem State.setT_errCode (r : Fin 8) (w : Word) (s : State) : (s.setT r w).errCode = s.errCode := rfl
@[simp] theorem State.setT_errPos (r : Fin 8) (w : Word) (s : State) : (s.setT r w).errPos = s.errPos := rfl
@[simp] theorem State.setT_errOp (r : Fin 8) (w : Word) (s : State) : (s.setT r w).errOp = s.errOp := rfl
@[simp] theorem State.setT_bits (r : Fin 8) (w : Word) (s : State) : (s.setT r w).bits = s.bits := rfl
@[simp] theorem State.setT_nzmask (r : Fin 8) (w : Word) (s : State) : (s.setT r w).nzmask = s.nzmask := rfl
@[simp] theorem State.setT_sample (r : Fin 8) (w : Word) (s : State) : (s.setT r w).sample = s.sample := rfl
@[simp] theorem State.setT_div (r : Fin 8) (w : Word) (s : State) : (s.setT r w).div = s.div := rfl
@[simp] theorem State.setT_coef (r : Fin 8) (w : Word) (s : State) : (s.setT r w).coef = s.coef := rfl
@[simp] theorem State.setT_qout (r : Fin 8) (w : Word) (s : State) : (s.setT r w).qout = s.qout := rfl
@[simp] theorem State.setT_pending (r : Fin 8) (w : Word) (s : State) : (s.setT r w).pending = s.pending := rfl
@[simp] theorem State.setT_t (r : Fin 8) (w : Word) (s : State) : (s.setT r w).t = s.t.set r w := rfl
@[simp] theorem State.setT_hostProg (r : Fin 8) (w : Word) (s : State) : (s.setT r w).hostProg = s.hostProg := rfl
@[simp] theorem State.setT_hostPc (r : Fin 8) (w : Word) (s : State) : (s.setT r w).hostPc = s.hostPc := rfl
@[simp] theorem State.setT_turns (r : Fin 8) (w : Word) (s : State) : (s.setT r w).turns = s.turns := rfl
@[simp] theorem State.setT_draws (r : Fin 8) (w : Word) (s : State) : (s.setT r w).draws = s.draws := rfl
@[simp] theorem State.setT_rdata (r : Fin 8) (w : Word) (s : State) : (s.setT r w).rdata = s.rdata := rfl
@[simp] theorem State.setT_inst (r : Fin 8) (w : Word) (s : State) : (s.setT r w).inst = s.inst := rfl

@[simp] theorem State.popTurn_ie (s : State) : (s.popTurn).ie = s.ie := rfl
@[simp] theorem State.popTurn_busy (s : State) : (s.popTurn).busy = s.busy := rfl
@[simp] theorem State.popTurn_done (s : State) : (s.popTurn).done = s.done := rfl
@[simp] theorem State.popTurn_err (s : State) : (s.popTurn).err = s.err := rfl
@[simp] theorem State.popTurn_ovr (s : State) : (s.popTurn).ovr = s.ovr := rfl
@[simp] theorem State.popTurn_bwe (s : State) : (s.popTurn).bwe = s.bwe := rfl
@[simp] theorem State.popTurn_cmdlast (s : State) : (s.popTurn).cmdlast = s.cmdlast := rfl
@[simp] theorem State.popTurn_errCode (s : State) : (s.popTurn).errCode = s.errCode := rfl
@[simp] theorem State.popTurn_errPos (s : State) : (s.popTurn).errPos = s.errPos := rfl
@[simp] theorem State.popTurn_errOp (s : State) : (s.popTurn).errOp = s.errOp := rfl
@[simp] theorem State.popTurn_bits (s : State) : (s.popTurn).bits = s.bits := rfl
@[simp] theorem State.popTurn_nzmask (s : State) : (s.popTurn).nzmask = s.nzmask := rfl
@[simp] theorem State.popTurn_sample (s : State) : (s.popTurn).sample = s.sample := rfl
@[simp] theorem State.popTurn_div (s : State) : (s.popTurn).div = s.div := rfl
@[simp] theorem State.popTurn_coef (s : State) : (s.popTurn).coef = s.coef := rfl
@[simp] theorem State.popTurn_qout (s : State) : (s.popTurn).qout = s.qout := rfl
@[simp] theorem State.popTurn_pending (s : State) : (s.popTurn).pending = s.pending := rfl
@[simp] theorem State.popTurn_t (s : State) : (s.popTurn).t = s.t := rfl
@[simp] theorem State.popTurn_hostProg (s : State) : (s.popTurn).hostProg = s.hostProg := rfl
@[simp] theorem State.popTurn_hostPc (s : State) : (s.popTurn).hostPc = s.hostPc := rfl
@[simp] theorem State.popTurn_turns (s : State) : (s.popTurn).turns = s.turns.tail := rfl
@[simp] theorem State.popTurn_draws (s : State) : (s.popTurn).draws = s.draws := rfl
@[simp] theorem State.popTurn_rdata (s : State) : (s.popTurn).rdata = s.rdata := rfl
@[simp] theorem State.popTurn_inst (s : State) : (s.popTurn).inst = s.inst := rfl

@[simp] theorem State.withCommand_ie (w : Word) (s : State) : (s.withCommand w).ie = s.ie := rfl
@[simp] theorem State.withCommand_busy (w : Word) (s : State) : (s.withCommand w).busy = true := rfl
@[simp] theorem State.withCommand_done (w : Word) (s : State) : (s.withCommand w).done = s.done := rfl
@[simp] theorem State.withCommand_err (w : Word) (s : State) : (s.withCommand w).err = s.err := rfl
@[simp] theorem State.withCommand_ovr (w : Word) (s : State) : (s.withCommand w).ovr = s.ovr := rfl
@[simp] theorem State.withCommand_bwe (w : Word) (s : State) : (s.withCommand w).bwe = s.bwe := rfl
@[simp] theorem State.withCommand_cmdlast (w : Word) (s : State) : (s.withCommand w).cmdlast = w := rfl
@[simp] theorem State.withCommand_errCode (w : Word) (s : State) : (s.withCommand w).errCode = s.errCode := rfl
@[simp] theorem State.withCommand_errPos (w : Word) (s : State) : (s.withCommand w).errPos = s.errPos := rfl
@[simp] theorem State.withCommand_errOp (w : Word) (s : State) : (s.withCommand w).errOp = s.errOp := rfl
@[simp] theorem State.withCommand_bits (w : Word) (s : State) : (s.withCommand w).bits = s.bits := rfl
@[simp] theorem State.withCommand_nzmask (w : Word) (s : State) : (s.withCommand w).nzmask = s.nzmask := rfl
@[simp] theorem State.withCommand_sample (w : Word) (s : State) : (s.withCommand w).sample = s.sample := rfl
@[simp] theorem State.withCommand_div (w : Word) (s : State) : (s.withCommand w).div = s.div := rfl
@[simp] theorem State.withCommand_coef (w : Word) (s : State) : (s.withCommand w).coef = s.coef := rfl
@[simp] theorem State.withCommand_qout (w : Word) (s : State) : (s.withCommand w).qout = s.qout := rfl
@[simp] theorem State.withCommand_pending (w : Word) (s : State) : (s.withCommand w).pending = some w := rfl
@[simp] theorem State.withCommand_t (w : Word) (s : State) : (s.withCommand w).t = s.t := rfl
@[simp] theorem State.withCommand_hostProg (w : Word) (s : State) : (s.withCommand w).hostProg = s.hostProg := rfl
@[simp] theorem State.withCommand_hostPc (w : Word) (s : State) : (s.withCommand w).hostPc = s.hostPc := rfl
@[simp] theorem State.withCommand_turns (w : Word) (s : State) : (s.withCommand w).turns = .engine :: s.turns := rfl
@[simp] theorem State.withCommand_draws (w : Word) (s : State) : (s.withCommand w).draws = s.draws := rfl
@[simp] theorem State.withCommand_rdata (w : Word) (s : State) : (s.withCommand w).rdata = s.rdata := rfl
@[simp] theorem State.withCommand_inst (w : Word) (s : State) : (s.withCommand w).inst = s.inst := rfl

@[simp] theorem State.rst_ie (s : State) : (s.rst).ie = State.reset.ie := rfl
@[simp] theorem State.rst_busy (s : State) : (s.rst).busy = State.reset.busy := rfl
@[simp] theorem State.rst_done (s : State) : (s.rst).done = State.reset.done := rfl
@[simp] theorem State.rst_err (s : State) : (s.rst).err = State.reset.err := rfl
@[simp] theorem State.rst_ovr (s : State) : (s.rst).ovr = State.reset.ovr := rfl
@[simp] theorem State.rst_bwe (s : State) : (s.rst).bwe = State.reset.bwe := rfl
@[simp] theorem State.rst_cmdlast (s : State) : (s.rst).cmdlast = State.reset.cmdlast := rfl
@[simp] theorem State.rst_errCode (s : State) : (s.rst).errCode = State.reset.errCode := rfl
@[simp] theorem State.rst_errPos (s : State) : (s.rst).errPos = State.reset.errPos := rfl
@[simp] theorem State.rst_errOp (s : State) : (s.rst).errOp = State.reset.errOp := rfl
@[simp] theorem State.rst_bits (s : State) : (s.rst).bits = State.reset.bits := rfl
@[simp] theorem State.rst_nzmask (s : State) : (s.rst).nzmask = State.reset.nzmask := rfl
@[simp] theorem State.rst_sample (s : State) : (s.rst).sample = Vector.ofFn (Config.resetSample s.inst s.draws) := rfl
@[simp] theorem State.rst_div (s : State) : (s.rst).div = State.reset.div := rfl
@[simp] theorem State.rst_coef (s : State) : (s.rst).coef = Vector.ofFn (Config.resetCoef s.inst s.draws) := rfl
@[simp] theorem State.rst_qout (s : State) : (s.rst).qout = Vector.ofFn (Config.resetQout s.inst s.draws) := rfl
@[simp] theorem State.rst_pending (s : State) : (s.rst).pending = State.reset.pending := rfl
@[simp] theorem State.rst_t (s : State) : (s.rst).t = s.t := rfl
@[simp] theorem State.rst_hostProg (s : State) : (s.rst).hostProg = s.hostProg := rfl
@[simp] theorem State.rst_hostPc (s : State) : (s.rst).hostPc = s.hostPc := rfl
@[simp] theorem State.rst_turns (s : State) : (s.rst).turns = s.turns := rfl
@[simp] theorem State.rst_draws (s : State) : (s.rst).draws = s.draws + 1 := rfl
@[simp] theorem State.rst_rdata (s : State) : (s.rst).rdata = s.rdata := rfl
@[simp] theorem State.rst_inst (s : State) : (s.rst).inst = s.inst := rfl

/-! A CFG write changes BITS alone, and that only to a legal value (R35). -/

@[simp] theorem State.writeCfg_ie (w : Word) (s : State) : (s.writeCfg w).ie = s.ie := by
  simp only [State.writeCfg]; split <;> rfl
@[simp] theorem State.writeCfg_busy (w : Word) (s : State) : (s.writeCfg w).busy = s.busy := by
  simp only [State.writeCfg]; split <;> rfl
@[simp] theorem State.writeCfg_done (w : Word) (s : State) : (s.writeCfg w).done = s.done := by
  simp only [State.writeCfg]; split <;> rfl
@[simp] theorem State.writeCfg_err (w : Word) (s : State) : (s.writeCfg w).err = s.err := by
  simp only [State.writeCfg]; split <;> rfl
@[simp] theorem State.writeCfg_ovr (w : Word) (s : State) : (s.writeCfg w).ovr = s.ovr := by
  simp only [State.writeCfg]; split <;> rfl
@[simp] theorem State.writeCfg_bwe (w : Word) (s : State) : (s.writeCfg w).bwe = s.bwe := by
  simp only [State.writeCfg]; split <;> rfl
@[simp] theorem State.writeCfg_cmdlast (w : Word) (s : State) : (s.writeCfg w).cmdlast = s.cmdlast := by
  simp only [State.writeCfg]; split <;> rfl
@[simp] theorem State.writeCfg_errCode (w : Word) (s : State) : (s.writeCfg w).errCode = s.errCode := by
  simp only [State.writeCfg]; split <;> rfl
@[simp] theorem State.writeCfg_errPos (w : Word) (s : State) : (s.writeCfg w).errPos = s.errPos := by
  simp only [State.writeCfg]; split <;> rfl
@[simp] theorem State.writeCfg_errOp (w : Word) (s : State) : (s.writeCfg w).errOp = s.errOp := by
  simp only [State.writeCfg]; split <;> rfl
@[simp] theorem State.writeCfg_nzmask (w : Word) (s : State) : (s.writeCfg w).nzmask = s.nzmask := by
  simp only [State.writeCfg]; split <;> rfl
@[simp] theorem State.writeCfg_sample (w : Word) (s : State) : (s.writeCfg w).sample = s.sample := by
  simp only [State.writeCfg]; split <;> rfl
@[simp] theorem State.writeCfg_div (w : Word) (s : State) : (s.writeCfg w).div = s.div := by
  simp only [State.writeCfg]; split <;> rfl
@[simp] theorem State.writeCfg_coef (w : Word) (s : State) : (s.writeCfg w).coef = s.coef := by
  simp only [State.writeCfg]; split <;> rfl
@[simp] theorem State.writeCfg_qout (w : Word) (s : State) : (s.writeCfg w).qout = s.qout := by
  simp only [State.writeCfg]; split <;> rfl
@[simp] theorem State.writeCfg_pending (w : Word) (s : State) : (s.writeCfg w).pending = s.pending := by
  simp only [State.writeCfg]; split <;> rfl
@[simp] theorem State.writeCfg_t (w : Word) (s : State) : (s.writeCfg w).t = s.t := by
  simp only [State.writeCfg]; split <;> rfl
@[simp] theorem State.writeCfg_hostProg (w : Word) (s : State) : (s.writeCfg w).hostProg = s.hostProg := by
  simp only [State.writeCfg]; split <;> rfl
@[simp] theorem State.writeCfg_hostPc (w : Word) (s : State) : (s.writeCfg w).hostPc = s.hostPc := by
  simp only [State.writeCfg]; split <;> rfl
@[simp] theorem State.writeCfg_turns (w : Word) (s : State) : (s.writeCfg w).turns = s.turns := by
  simp only [State.writeCfg]; split <;> rfl
@[simp] theorem State.writeCfg_draws (w : Word) (s : State) : (s.writeCfg w).draws = s.draws := by
  simp only [State.writeCfg]; split <;> rfl
@[simp] theorem State.writeCfg_rdata (w : Word) (s : State) : (s.writeCfg w).rdata = s.rdata := by
  simp only [State.writeCfg]; split <;> rfl
@[simp] theorem State.writeCfg_inst (w : Word) (s : State) : (s.writeCfg w).inst = s.inst := by
  simp only [State.writeCfg]; split <;> rfl
@[simp] theorem State.writeCfg_bits (w : Word) (s : State) :
    (s.writeCfg w).bits = if legalBits (w.extractLsb' 0 5) then w.extractLsb' 0 5 else s.bits := by
  simp only [State.writeCfg]; split <;> rfl

end Sys2Proof.Machine
end

