-- ==== Sys2Proof/Laws/Ops.lean ====
section
/-! SUPPORT. For each shared operation, once, everything it can do. -/

namespace Sys2Proof.Machine

open Host (Outcome)

@[simp] theorem andThen_next {α β : Type} (a : α) (f : α → Outcome β Fault Refusal) :
    andThen (.next a) f = f a := rfl

/-- A sequence answers exactly when its first part answers and the rest answers from there. -/
theorem andThen_eq_next {α β : Type} {o : Outcome α Fault Refusal}
    {f : α → Outcome β Fault Refusal} {b : β} :
    andThen o f = .next b ↔ ∃ a, o = .next a ∧ f a = .next b := by
  cases o <;> simp [andThen]

/-! ## Commands -/

@[simp] theorem finish_none (op : BitVec 8) (f : State → State) (s : State) :
    finish none op f s = .next (f s).complete := rfl

@[simp] theorem finish_some (e : CommandError) (op : BitVec 8) (f : State → State) (s : State) :
    finish (some e) op f s = .next (s.fail e op) := rfl

/-- A completion step fails with the error its checks found, or does its writes and completes. -/
theorem finish_eq_next {c : Option CommandError} {op : BitVec 8} {f : State → State} {s t : State}
    (h : finish c op f s = .next t) :
    (∃ e, c = some e ∧ t = s.fail e op) ∨ (c = none ∧ t = (f s).complete) := by
  cases c with
  | some e => exact .inl ⟨e, rfl, (by simpa using h.symm)⟩
  | none => exact .inr ⟨rfl, (by simpa using h.symm)⟩

/-- A completion step always answers a next state: no command stops the machine (R190). -/
theorem finish_answers (c : Option CommandError) (op : BitVec 8) (f : State → State) (s : State) :
    ∃ t, finish c op f s = .next t := by
  cases c <;> simp

/-! Each command as its completion step. -/

theorem exec_nop (s : State) : exec .nop s = finish none 0x00 id s := rfl

theorem exec_fdct (r c : BitVec 4) (s : State) : exec (.fdct r c) s =
    finish (shapeError r c) 0x01 (fun s => { s with coef := forwardDct s.sample s.bits }) s := rfl

theorem exec_quant (r c : BitVec 4) (s : State) : exec (.quant r c) s =
    finish ((shapeError r c).or (divisorError s.div)) 0x02 State.quantized s := rfl

theorem exec_fdctq (r c : BitVec 4) (s : State) : exec (.fdctq r c) s =
    finish ((shapeError r c).or (divisorError s.div)) 0x03
      (fun s => State.quantized { s with coef := forwardDct s.sample s.bits }) s := rfl

theorem exec_lddiv (tbl : BitVec 4) (s : State) : exec (.lddiv tbl) s =
    finish (if tbl = 0 then none else some .illegal) 0x04 (fun s => { s with div := ramp }) s := rfl

/-- What a command can do: NOP completes; FDCT, QUANT, FDCTQ and LDDIV fail or write their outputs and complete. -/
theorem exec_cases {i : Instr} {s t : State} (h : exec i s = .next t) :
    (i = .nop ∧ t = s.complete) ∨
    (∃ r c, i = .fdct r c ∧
      ((shapeError r c = some .shape ∧ t = s.fail .shape 1) ∨
       (shapeError r c = none ∧ t = State.complete { s with coef := forwardDct s.sample s.bits }))) ∨
    (∃ r c, i = .quant r c ∧
      ((∃ e, (shapeError r c).or (divisorError s.div) = some e ∧ t = s.fail e 2) ∨
       ((shapeError r c).or (divisorError s.div) = none ∧ t = s.quantized.complete))) ∨
    (∃ r c, i = .fdctq r c ∧
      ((∃ e, (shapeError r c).or (divisorError s.div) = some e ∧ t = s.fail e 3) ∨
       ((shapeError r c).or (divisorError s.div) = none ∧
        t = (State.quantized { s with coef := forwardDct s.sample s.bits }).complete))) ∨
    (∃ tbl, i = .lddiv tbl ∧
      ((tbl ≠ 0 ∧ t = s.fail .illegal 4) ∨
       (tbl = 0 ∧ t = State.complete { s with div := ramp }))) := by
  cases i with
  | nop =>
    rw [exec_nop, finish_none] at h
    exact .inl ⟨rfl, (by injection h with h; exact h.symm)⟩
  | fdct r c =>
    rw [exec_fdct] at h
    refine .inr (.inl ⟨r, c, rfl, ?_⟩)
    rcases finish_eq_next h with ⟨e, he, ht⟩ | ⟨he, ht⟩
    · left
      have : e = .shape := by
        unfold shapeError at he; split at he <;> simp_all
      subst this; exact ⟨he, ht⟩
    · exact .inr ⟨he, ht⟩
  | quant r c =>
    rw [exec_quant] at h
    have h := finish_eq_next h
    exact .inr (.inr (.inl ⟨r, c, rfl, h⟩))
  | fdctq r c =>
    rw [exec_fdctq] at h
    have h := finish_eq_next h
    exact .inr (.inr (.inr (.inl ⟨r, c, rfl, h⟩)))
  | lddiv tbl =>
    rw [exec_lddiv] at h
    refine .inr (.inr (.inr (.inr ⟨tbl, rfl, ?_⟩)))
    by_cases h0 : tbl = 0
    · rw [if_pos h0, finish_none] at h
      injection h with h
      exact .inr ⟨h0, h.symm⟩
    · rw [if_neg h0, finish_some] at h
      injection h with h
      exact .inl ⟨h0, h.symm⟩

theorem exec_answers (i : Instr) (s : State) : ∃ t, exec i s = .next t := by
  cases i with
  | nop => rw [exec_nop]; exact finish_answers _ _ _ _
  | fdct r c => rw [exec_fdct]; exact finish_answers _ _ _ _
  | quant r c => rw [exec_quant]; exact finish_answers _ _ _ _
  | fdctq r c => rw [exec_fdctq]; exact finish_answers _ _ _ _
  | lddiv tbl => rw [exec_lddiv]; exact finish_answers _ _ _ _

/-- The completion step of a word: its command's, or the failure of an illegal word (R105, R172). -/
theorem completeWord_cases {w : Word} {s t : State} (h : completeWord w s = .next t) :
    (∃ i, decode w = .ok i ∧ exec i s = .next t) ∨
    ((∃ e, decode w = .error e) ∧ t = s.fail .illegal (fieldOp w)) := by
  unfold completeWord at h
  split at h
  · rename_i i hi; exact .inl ⟨i, hi, h⟩
  · rename_i e he; exact .inr ⟨⟨e, he⟩, by simpa using h.symm⟩

theorem completeWord_answers (w : Word) (s : State) : ∃ t, completeWord w s = .next t := by
  unfold completeWord
  split
  · exact exec_answers _ _
  · exact ⟨_, rfl⟩

theorem engineTurn_idle {s : State} (h : s.busy = false) : engineTurn s = .next s := by
  unfold engineTurn; rw [if_neg (by simp [h])]

theorem engineTurn_busy {s : State} {w : Word} (h : s.busy = true) (hw : s.pending = some w) :
    engineTurn s = completeWord w s := by
  unfold engineTurn; rw [if_pos h, hw]

/-- The engine's turn: the completion step of a busy engine, or nothing (R172, R207). -/
theorem engineTurn_cases {s t : State} (h : engineTurn s = .next t) :
    (s.busy = false ∧ t = s) ∨
    (s.busy = true ∧ ∃ w, s.pending = some w ∧ completeWord w s = .next t) := by
  unfold engineTurn at h
  split at h
  · rename_i hb
    split at h
    · rename_i w hw; exact .inr ⟨hb, w, hw, h⟩
    · cases h
  · rename_i hb
    exact .inl ⟨by simpa using hb, by simpa using h.symm⟩

/-! ## The window -/

/-- An access is defined exactly when it is an aligned 32-bit access inside the window (R70, R72). -/
theorem accessLoc_eq_next {off size : Nat} {l : Loc} :
    accessLoc off size = .next l ↔ size = 4 ∧ off % 4 = 0 ∧ off < 0x1000 ∧ locOf off = l := by
  unfold accessLoc
  by_cases h : size ≠ 4 ∨ off % 4 ≠ 0
  · rw [if_pos h]
    exact ⟨fun h' => (by cases h'), fun h' => by omega⟩
  · rw [if_neg h]
    by_cases h2 : off < 0x1000
    · rw [if_pos h2]
      exact ⟨fun h' => ⟨by omega, by omega, h2, by injection h'⟩, fun h' => by rw [h'.2.2.2]⟩
    · rw [if_neg h2]
      exact ⟨fun h' => (by cases h'), fun h' => by omega⟩

theorem memWrite_eq_next {off size : Nat} {w : Word} {s t : State} :
    memWrite off size w s = .next t ↔
      size = 4 ∧ off % 4 = 0 ∧ off < 0x1000 ∧ t = writeLoc (locOf off) w s := by
  unfold memWrite
  rw [andThen_eq_next]
  simp only [accessLoc_eq_next]
  constructor
  · rintro ⟨l, ⟨h1, h2, h3, rfl⟩, h4⟩
    exact ⟨h1, h2, h3, by simpa using h4.symm⟩
  · rintro ⟨h1, h2, h3, rfl⟩
    exact ⟨_, ⟨h1, h2, h3, rfl⟩, rfl⟩

theorem memRead_eq_next {off size : Nat} {p : Word × State} {s : State} :
    memRead off size s = .next p ↔
      size = 4 ∧ off % 4 = 0 ∧ off < 0x1000 ∧ p = readLoc (locOf off) s := by
  unfold memRead
  rw [andThen_eq_next]
  simp only [accessLoc_eq_next]
  constructor
  · rintro ⟨l, ⟨h1, h2, h3, rfl⟩, h4⟩
    exact ⟨h1, h2, h3, by simpa using h4.symm⟩
  · rintro ⟨h1, h2, h3, rfl⟩
    exact ⟨_, ⟨h1, h2, h3, rfl⟩, rfl⟩

/-- A read answers what the register holds and changes nothing, or draws a free value (R74, R77, R78). -/
theorem readLoc_cases (l : Loc) (s : State) :
    (readLoc l s = (s.view l, s) ∧ (s.busy = false ∨ l.openWhileBusy = false)) ∨
    (readLoc l s = (Config.busyRead s.inst s.draws, { s with draws := s.draws + 1 }) ∧
      s.busy = true ∧ l.openWhileBusy = true) := by
  unfold readLoc
  cases hb : s.busy <;> cases hl : l.openWhileBusy <;> simp

/-- What a write of a register can do (R71): nothing, CTRL, STATUS, an acceptance, an overrun, a discarded write, CFG, or one entry. -/
theorem writeLoc_cases (l : Loc) (w : Word) (s : State) :
    writeLoc l w s = s ∨
    (l = .ctrl ∧ writeLoc l w s = s.writeCtrl w) ∨
    (l = .status ∧ writeLoc l w s = s.clearStatus w) ∨
    (l = .cmd ∧ s.busy = false ∧ writeLoc l w s = s.accept w) ∨
    (l = .cmd ∧ s.busy = true ∧ writeLoc l w s = s.setOvr) ∨
    ((l = .cfg ∨ ∃ k, l = .sample k ∨ l = .div k ∨ l = .coef k) ∧ s.busy = true ∧
      writeLoc l w s = s.setBwe) ∨
    (l = .cfg ∧ s.busy = false ∧ writeLoc l w s = s.writeCfg w) ∨
    (∃ k : Fin 64, l = .sample k ∧ s.busy = false ∧
      writeLoc l w s = { s with sample := s.sample.set k (w.setWidth 16) }) ∨
    (∃ k : Fin 64, l = .div k ∧ s.busy = false ∧
      writeLoc l w s = { s with div := s.div.set k (w.setWidth 16) }) ∨
    (∃ k : Fin 64, l = .coef k ∧ s.busy = false ∧
      writeLoc l w s = { s with coef := s.coef.set k w }) := by
  cases hb : s.busy <;> cases l <;> simp [writeLoc, State.issueCommand, State.unlessBusy, hb]

/-! ## The host's accesses -/

/-- What a host operation that answers can have done. -/
theorem hostOp_cases {op : HostOp} {s t : State} (h : hostOp op s = .next t) :
    (∃ off w, offsetOk off = true ∧ (op = .sw off w ∨ ∃ r, op = .swt off r ∧ w = s.t[r]) ∧
      t = (writeLoc (locOf off) w s).advanceHost) ∨
    (∃ r off, offsetOk off = true ∧ op = .lw r off ∧
      t = ((readLoc (locOf off) s).2.setT r (readLoc (locOf off) s).1).advanceHost) ∨
    (∃ r m imm, op = .andi r m imm ∧ t = (s.setT r (s.t[m] &&& imm)).advanceHost) ∨
    (∃ r l place, op = .bnez r l ∧ labelPlace s.hostProg l = some place ∧
      t = if s.t[r] ≠ 0 then { s with hostPc := place } else s.advanceHost) ∨
    (∃ l, op = .label l ∧ t = s.advanceHost) ∨
    (op = .halt ∧ t = s) := by
  cases op with
  | sw off w =>
    obtain ⟨s', h1, h2⟩ := andThen_eq_next.1 h
    obtain ⟨-, ha, hb, rfl⟩ := memWrite_eq_next.1 h1
    exact .inl ⟨off, w, by simp [offsetOk, ha, hb], .inl rfl, by simpa using h2.symm⟩
  | swt off r =>
    obtain ⟨s', h1, h2⟩ := andThen_eq_next.1 h
    obtain ⟨-, ha, hb, rfl⟩ := memWrite_eq_next.1 h1
    exact .inl ⟨off, s.t[r], by simp [offsetOk, ha, hb], .inr ⟨r, rfl, rfl⟩, by simpa using h2.symm⟩
  | lw r off =>
    obtain ⟨p, h1, h2⟩ := andThen_eq_next.1 h
    obtain ⟨-, ha, hb, rfl⟩ := memRead_eq_next.1 h1
    exact .inr (.inl ⟨r, off, by simp [offsetOk, ha, hb], rfl, by simpa using h2.symm⟩)
  | andi r m imm => exact .inr (.inr (.inl ⟨r, m, imm, rfl, by simpa [hostOp] using h.symm⟩))
  | bnez r l =>
    simp only [hostOp] at h
    split at h
    · cases h
    · rename_i place hp
      refine .inr (.inr (.inr (.inl ⟨r, l, place, rfl, hp, ?_⟩)))
      injection h with h; exact h.symm
  | label l => exact .inr (.inr (.inr (.inr (.inl ⟨l, rfl, by simpa [hostOp] using h.symm⟩))))
  | halt => exact .inr (.inr (.inr (.inr (.inr ⟨rfl, by simpa [hostOp] using h.symm⟩))))

/-- What a single access that answers can have done. -/
theorem busAccess_cases {a : Access} {s t : State} (h : busAccess a s = .next t) :
    (∃ off, s.base ≤ s.base + off ∧ a = .read (s.base + off) 4 ∧ offsetOk off = true ∧
      t = { (readLoc (locOf off) s).2 with rdata := (readLoc (locOf off) s).1 }) ∨
    (∃ off w, a = .write (s.base + off) 4 w ∧ offsetOk off = true ∧
      t = writeLoc (locOf off) w s) := by
  cases a with
  | read addr size =>
    left
    obtain ⟨off, h1, h2⟩ := andThen_eq_next.1 h
    obtain ⟨p, h3, h4⟩ := andThen_eq_next.1 h2
    obtain ⟨rfl, ha, hb, rfl⟩ := memRead_eq_next.1 h3
    unfold State.offsetOf at h1
    split at h1
    · rename_i hle
      obtain rfl : addr - s.base = off := by simpa using h1
      refine ⟨addr - s.base, by omega, ?_, by simp [offsetOk, ha, hb], by simpa using h4.symm⟩
      rw [Nat.add_sub_cancel' hle]
    · cases h1
  | write addr size w =>
    right
    obtain ⟨off, h1, h2⟩ := andThen_eq_next.1 h
    obtain ⟨rfl, ha, hb, rfl⟩ := memWrite_eq_next.1 h2
    unfold State.offsetOf at h1
    split at h1
    · rename_i hle
      obtain rfl : addr - s.base = off := by simpa using h1
      refine ⟨addr - s.base, w, ?_, by simp [offsetOk, ha, hb], rfl⟩
      rw [Nat.add_sub_cancel' hle]
    · cases h1

/-- A step is the next agent's move from the state without that turn. -/
theorem step_eq (s : State) : step s = takeTurn s.nextTurn s.popTurn := rfl

/-- What a step that answers can have been. -/
theorem step_cases {s t : State} (h : step s = .next t) :
    (s.nextTurn = .engine ∧ engineTurn s.popTurn = .next t) ∨
    (s.nextTurn = .host ∧ ∃ op, s.hostProg[s.hostPc]? = some op ∧ hostOp op s.popTurn = .next t) ∨
    (s.nextTurn = .host ∧ s.hostProg[s.hostPc]? = none ∧ t = s.popTurn) ∨
    (∃ a, s.nextTurn = .bus a ∧ busAccess a s.popTurn = .next t) ∨
    (s.nextTurn = .rst ∧ t = s.popTurn.rst) := by
  rw [step_eq] at h
  cases hn : s.nextTurn with
  | engine => rw [hn] at h; exact .inl ⟨rfl, h⟩
  | host =>
    rw [hn] at h
    simp only [takeTurn, hostTurn, State.popTurn_hostProg, State.popTurn_hostPc] at h
    split at h
    · rename_i op ho; exact .inr (.inl ⟨rfl, op, ho, h⟩)
    · rename_i ho; exact .inr (.inr (.inl ⟨rfl, ho, by simpa using h.symm⟩))
  | bus a => rw [hn] at h; exact .inr (.inr (.inr (.inl ⟨a, rfl, h⟩)))
  | rst => rw [hn] at h; exact .inr (.inr (.inr (.inr ⟨rfl, by simpa [takeTurn] using h.symm⟩)))

end Sys2Proof.Machine
end

