-- ==== Sys2Proof/Laws/Frames.lean ====
section
/-! SUPPORT. What the shared operations keep: the invariant, the host agent, and the operands of a running command. -/

namespace Sys2Proof.Machine

/-! ## The invariant -/

/-- The invariant speaks of these fields only. -/
theorem State.Inv.of_same_fields {s t : State} (h : s.Inv) (h1 : t.busy = s.busy) (h2 : t.pending = s.pending) (h3 : t.cmdlast = s.cmdlast) (h4 : t.bits = s.bits)
  (h5 : t.errCode = s.errCode) (h6 : t.errPos = s.errPos) (h7 : t.errOp = s.errOp) (h8 : t.err = true → s.err = true) : t.Inv := by
  obtain ⟨a, b, c, d, e, f, g, i, j⟩ := h
  constructor
  · rw [h1, h2]; exact a
  · rw [h2, h3]; exact b
  · rw [h4]; exact c
  · rw [h5]; exact d
  · rw [h5, h6]; exact e
  · rw [h5, h7]; exact f
  · rw [h5]; exact fun h => g (h8 h)
  · rw [h5, h7]; exact i
  · rw [h5, h7]; exact j

/-- A completed command without an error keeps the invariant. -/
theorem State.Inv.of_completed {s : State} (h : s.Inv) (t : State) (h1 : t.busy = false) (h2 : t.pending = none) (h4 : t.bits = s.bits)
  (h5 : t.errCode = s.errCode) (h6 : t.errPos = s.errPos) (h7 : t.errOp = s.errOp) (h8 : t.err = s.err) : t.Inv := by
  obtain ⟨a, b, c, d, e, f, g, i, j⟩ := h
  constructor
  · rw [h1, h2]; rfl
  · rw [h2]; intro _ h; cases h
  · rw [h4]; exact c
  · rw [h5]; exact d
  · rw [h5, h6]; exact e
  · rw [h5, h7]; exact f
  · rw [h5, h8]; exact g
  · rw [h5, h7]; exact i
  · rw [h5, h7]; exact j

/-- Failing with an error that the command may raise keeps the invariant. -/
theorem State.Inv.of_fail {s : State} (h : s.Inv) (e : CommandError) (op : BitVec 8) (h1 : e = .shape → op = 1 ∨ op = 2 ∨ op = 3) (h2 : ∀ k, e = .divisor k → op = 2 ∨ op = 3) :
    (s.fail e op).Inv := by
  constructor
  · rfl
  · intro _ h; cases h
  · exact h.bits_legal
  · cases e <;> simp [CommandError.code]
  · cases e <;> simp [CommandError.code, CommandError.pos]
  · cases e <;> simp [CommandError.code]
  · cases e <;> simp [CommandError.code]
  · cases e <;> simp [CommandError.code]; exact h1 rfl
  · cases e <;> simp [CommandError.code]; exact h2 _ rfl

/-- A write of any register keeps the invariant. -/
theorem State.Inv.of_writeLoc {s : State} (h : s.Inv) (l : Loc) (w : Word) : (writeLoc l w s).Inv := by
  rcases writeLoc_cases l w s with e | ⟨-, e⟩ | ⟨-, e⟩ | ⟨-, hb, e⟩ | ⟨-, -, e⟩ | ⟨-, -, e⟩ | ⟨-, -, e⟩ | ⟨k, -, -, e⟩ | ⟨k, -, -, e⟩ | ⟨k, -, -, e⟩ <;> rw [e]
  · exact h
  · exact State.Inv.of_same_fields h rfl rfl rfl rfl rfl rfl rfl id
  · exact State.Inv.of_same_fields h rfl rfl rfl rfl rfl rfl rfl (by simp; tauto)
  · obtain ⟨a, b, c, d, e, f, g, i, j⟩ := h
    constructor <;> simp_all
  · exact State.Inv.of_same_fields h rfl rfl rfl rfl rfl rfl rfl id
  · exact State.Inv.of_same_fields h rfl rfl rfl rfl rfl rfl rfl id
  · obtain ⟨a, b, c, d, e, f, g, i, j⟩ := h
    constructor <;> simp_all
    split <;> assumption
  · exact State.Inv.of_same_fields h rfl rfl rfl rfl rfl rfl rfl id
  · exact State.Inv.of_same_fields h rfl rfl rfl rfl rfl rfl rfl id
  · exact State.Inv.of_same_fields h rfl rfl rfl rfl rfl rfl rfl id

/-- A read of any register keeps the invariant. -/
theorem State.Inv.of_readLoc {s : State} (h : s.Inv) (l : Loc) : (readLoc l s).2.Inv := by
  rcases readLoc_cases l s with ⟨e, -⟩ | ⟨e, -⟩ <;> rw [e]
  · exact h
  · exact State.Inv.of_same_fields h rfl rfl rfl rfl rfl rfl rfl id

/-- The checks of QUANT and FDCTQ raise ShapeError or InvalidDivisorError only. -/
theorem checks_raise_shape_or_divisor {r c} {d : Matrix Half} {e} (h : (shapeError r c).or (divisorError d) = some e) :
    e = .shape ∨ ∃ k, e = .divisor k := by
  unfold shapeError divisorError at h
  split at h
  · simp only [Option.none_or, Option.map_eq_some_iff] at h
    obtain ⟨k, -, rfl⟩ := h; exact .inr ⟨k, rfl⟩
  · simp at h; exact .inl h.symm

/-! ## Frames -/

/-- A write leaves the host agent, the turns and the instance alone. -/
theorem writeLoc_keeps_host (l w) (s : State) :
    (writeLoc l w s).hostProg = s.hostProg ∧ (writeLoc l w s).hostPc = s.hostPc ∧ (writeLoc l w s).turns = s.turns ∧ (writeLoc l w s).inst = s.inst := by
  rcases writeLoc_cases l w s with e | ⟨-, e⟩ | ⟨-, e⟩ | ⟨-, hb, e⟩ | ⟨-, -, e⟩ | ⟨-, -, e⟩ | ⟨-, -, e⟩ | ⟨k, -, -, e⟩ | ⟨k, -, -, e⟩ | ⟨k, -, -, e⟩ <;> rw [e] <;> simp

/-- A read leaves the host agent, the turns and the instance alone. -/
theorem readLoc_keeps_host (l) (s : State) :
    (readLoc l s).2.hostProg = s.hostProg ∧ (readLoc l s).2.hostPc = s.hostPc ∧ (readLoc l s).2.turns = s.turns ∧ (readLoc l s).2.inst = s.inst := by
  rcases readLoc_cases l s with ⟨e, -⟩ | ⟨e, -⟩ <;> rw [e] <;> simp

/-- A command leaves the host agent, the turns and the instance alone. -/
theorem exec_keeps_host {i} {s t : State} (h : exec i s = .next t) :
    t.hostProg = s.hostProg ∧ t.hostPc = s.hostPc ∧ t.turns = s.turns ∧ t.inst = s.inst := by
  rcases exec_cases h with ⟨rfl, rfl⟩ | ⟨r, c, rfl, ⟨h1, rfl⟩ | ⟨h1, rfl⟩⟩ | ⟨r, c, rfl, ⟨e, h1, rfl⟩ | ⟨h1, rfl⟩⟩ |
   ⟨r, c, rfl, ⟨e, h1, rfl⟩ | ⟨h1, rfl⟩⟩ | ⟨t, rfl, ⟨h1, rfl⟩ | ⟨h1, rfl⟩⟩ <;> simp

/-- A completion leaves the host agent, the turns and the instance alone. -/
theorem completeWord_keeps_host {w} {s t : State} (h : completeWord w s = .next t) :
    t.hostProg = s.hostProg ∧ t.hostPc = s.hostPc ∧ t.turns = s.turns ∧ t.inst = s.inst := by
  rcases completeWord_cases h with ⟨i, -, he⟩ | ⟨-, rfl⟩
  · exact exec_keeps_host he
  · simp

/-- The engine's turn leaves the host agent, the turns and the instance alone. -/
theorem engineTurn_keeps_host {s t : State} (h : engineTurn s = .next t) :
    t.hostProg = s.hostProg ∧ t.hostPc = s.hostPc ∧ t.turns = s.turns ∧ t.inst = s.inst := by
  rcases engineTurn_cases h with ⟨-, rfl⟩ | ⟨-, w, -, he⟩
  · simp
  · exact completeWord_keeps_host he

/-- A step keeps the host's program and the instance number, and takes one turn off the list. -/
theorem step_keeps_platform {s t : State} (h : step s = .next t) :
    t.hostProg = s.hostProg ∧ t.turns = s.turns.tail ∧ t.inst = s.inst := by
  rcases step_cases h with ⟨-, he⟩ | ⟨-, op, -, he⟩ | ⟨-, -, rfl⟩ | ⟨a, -, he⟩ | ⟨-, rfl⟩
  · have := engineTurn_keeps_host he; simp_all
  · rcases hostOp_cases he with ⟨off, w, -, -, rfl⟩ | ⟨r, off, -, -, rfl⟩ | ⟨r, m, imm, -, rfl⟩ | ⟨r, l, p, -, -, rfl⟩ | ⟨l, -, rfl⟩ | ⟨-, rfl⟩
    · have := writeLoc_keeps_host (locOf off) w s.popTurn; simp_all
    · have := readLoc_keeps_host (locOf off) s.popTurn; simp_all
    · simp
    · split <;> simp
    · simp
    · simp
  · simp
  · rcases busAccess_cases he with ⟨off, -, -, -, rfl⟩ | ⟨off, w, -, -, rfl⟩
    · have := readLoc_keeps_host (locOf off) s.popTurn; simp_all
    · have := writeLoc_keeps_host (locOf off) w s.popTurn; simp_all
  · simp

/-- While busy a write changes no operand, result or latched command (R43, R76). -/
theorem writeLoc_busy (l w) (s : State) (hb : s.busy = true) : let t := writeLoc l w s
   t.sample = s.sample ∧ t.div = s.div ∧ t.coef = s.coef ∧ t.bits = s.bits ∧ t.qout = s.qout ∧
    t.nzmask = s.nzmask ∧ t.pending = s.pending ∧ t.cmdlast = s.cmdlast ∧ t.busy = true ∧
    t.errCode = s.errCode ∧ t.errPos = s.errPos ∧ t.errOp = s.errOp := by
  rcases writeLoc_cases l w s with e | ⟨-, e⟩ | ⟨-, e⟩ | ⟨-, hb, e⟩ | ⟨-, -, e⟩ | ⟨-, -, e⟩ | ⟨-, hb, e⟩ | ⟨k, -, hb, e⟩ | ⟨k, -, hb, e⟩ | ⟨k, -, hb, e⟩ <;> simp_all

/-- While busy a read changes no operand, result or latched command (R78). -/
theorem readLoc_busy (l) (s : State) (hb : s.busy = true) : let t := (readLoc l s).2
   t.sample = s.sample ∧ t.div = s.div ∧ t.coef = s.coef ∧ t.bits = s.bits ∧ t.qout = s.qout ∧
    t.nzmask = s.nzmask ∧ t.pending = s.pending ∧ t.cmdlast = s.cmdlast ∧ t.busy = true ∧
    t.errCode = s.errCode ∧ t.errPos = s.errPos ∧ t.errOp = s.errOp := by
  rcases readLoc_cases l s with ⟨e, -⟩ | ⟨e, -⟩ <;> simp_all

/-- A step whose turn is the host's is the operation at its place in the program (R108). -/
theorem step_host {s : State} {op : HostOp} {rest : List Turn} (ht : s.turns = .host :: rest)
    (ho : s.hostProg[s.hostPc]? = some op) :
    step s = hostOp op { s with turns := rest } := by
  rw [step_eq]
  have : s.nextTurn = .host := by unfold State.nextTurn; rw [ht]
  rw [this]
  show hostTurn _ = _
  have hp : s.popTurn = { s with turns := rest } := by unfold State.popTurn; rw [ht]; rfl
  rw [hp]; unfold hostTurn
  rw [show ({ s with turns := rest } : State).hostProg = s.hostProg from rfl, show ({ s with turns := rest } : State).hostPc = s.hostPc from rfl, ho]

end Sys2Proof.Machine
end

