-- ==== Sys2Proof/Laws/PerInstr.lean ====
section
/-! SUPPORT. Statements about every instruction as syntax, one lemma for each constructor. -/

namespace Sys2Proof.Laws.EncodedFields

/-- R100 to R102: which fields the word of an instruction holds; RSV is always 0. -/
def Statement (i : Instr) : Prop :=
  fieldRsv (encode i) = 0 ∧
  match i with
  | .nop => encode i = 0
  | .fdct r c => fieldOp (encode i) = 1 ∧ fieldRows (encode i) = r ∧ fieldCols (encode i) = c ∧ fieldTbl (encode i) = 0
  | .quant r c => fieldOp (encode i) = 2 ∧ fieldRows (encode i) = r ∧ fieldCols (encode i) = c ∧ fieldTbl (encode i) = 0
  | .fdctq r c => fieldOp (encode i) = 3 ∧ fieldRows (encode i) = r ∧ fieldCols (encode i) = c ∧ fieldTbl (encode i) = 0
  | .lddiv tbl => fieldOp (encode i) = 4 ∧ fieldRows (encode i) = 0 ∧ fieldCols (encode i) = 0 ∧ fieldTbl (encode i) = tbl

theorem nop : Statement .nop := ⟨rfl, rfl⟩

theorem fdct (r c : BitVec 4) : Statement (.fdct r c) := by
  unfold Statement; revert r c; decide +kernel

theorem quant (r c : BitVec 4) : Statement (.quant r c) := by
  unfold Statement; revert r c; decide +kernel

theorem fdctq (r c : BitVec 4) : Statement (.fdctq r c) := by
  unfold Statement; revert r c; decide +kernel

theorem lddiv (tbl : BitVec 4) : Statement (.lddiv tbl) := by
  unfold Statement; revert tbl; decide +kernel

end Sys2Proof.Laws.EncodedFields
end

