-- ==== Sys2Proof/Laws/Transform.lean ====
section
/-! SUPPORT. The direct sum as a sum over the block, the symmetries and bounds of the ROM, and exact arithmetic in bit vectors. -/

namespace Sys2Proof.Machine

/-- The sum over 0..7. -/
theorem sum8_eq_sum (f : Fin 8 → Int) : sum8 f = ∑ x, f x := by rw [Fin.sum_univ_eight]; rfl

/-- The sum of R121 over all positions. -/
theorem directSum_eq_sum (d) (u v : Fin 8) : directSum d u v = ∑ x : Fin 8, ∑ y : Fin 8, d x y * rom u v x y := by
  simp only [directSum, sum8_eq_sum]

/-- R125: no weight is larger than P[1][1]. -/
theorem rom_natAbs_le : ∀ u v x y : Fin 8, (rom u v x y).natAbs ≤ 258218740 := by decide +kernel

/-- R128: mirroring a row multiplies by (−1)^u. -/
theorem rom_mirror_row :
    ∀ (u v : Fin 8) (x : Fin 4) (y : Fin 8), rom u v (mirror (lower x)) y = (if parity u then -1 else 1) * rom u v (lower x) y := by decide +kernel

/-- R128: mirroring a column multiplies by (−1)^v. -/
theorem rom_mirror_column :
    ∀ (u v : Fin 8) (x : Fin 8) (y : Fin 4), rom u v x (mirror (lower y)) = (if parity v then -1 else 1) * rom u v x (lower y) := by decide +kernel

/-- A sum over 0..7 in mirrored pairs. -/
theorem sum_eq_mirrored_pairs (f : Fin 8 → Int) : ∑ x, f x = ∑ x : Fin 4, (f (lower x) + f (mirror (lower x))) := by
  rw [Fin.sum_univ_eight, Fin.sum_univ_four]
  simp only [show lower 0 = 0 from rfl, show lower 1 = 1 from rfl, show lower 2 = 2 from rfl, show lower 3 = 3 from rfl, show mirror 0 = 7 from rfl, show mirror 1 = 6 from rfl, show mirror 2 = 5 from rfl, show mirror 3 = 4 from rfl]
  ring

/-- A tie goes outward (R11). -/
theorem roundHAZ_tie (a : Int) {b : Int} (hb : 0 < b) (h : 2 * (a.natAbs % b.natAbs) = b.natAbs) :
    a.natAbs < b.natAbs * (roundHAZ a b).natAbs := by
  have hq : (roundHAZ a b).natAbs = a.sign.natAbs * ((2 * (a.natAbs : Int) + b) / (2 * b)).natAbs := by
    rw [roundHAZ, Int.natAbs_mul]
  have ha : a ≠ 0 := by rintro rfl; simp at h; omega
  have hs : a.sign.natAbs = 1 := Int.natAbs_sign_of_ne_zero ha
  obtain ⟨n, rfl⟩ : ∃ n : Nat, b = n := ⟨b.toNat, by omega⟩
  rw [hq, hs]
  have e : ((2 * (a.natAbs : Int) + (n:Int)) / (2 * (n:Int))) = (((2 * a.natAbs + n) / (2 * n) : Nat) : Int) := by push_cast; rfl
  rw [e]
  simp only [Int.natAbs_natCast, one_mul] at *
  generalize a.natAbs = m at *
  have h1 := Nat.mod_add_div m n
  have hn : 0 < n := by omega
  have : (2 * m + n) / (2 * n) = m / n + 1 := by
    have : 2 * m + n = 2 * n * (m / n + 1) := by
      have : 2 * n * (m / n + 1) = 2 * (n * (m/n)) + 2 * n := by ring
      omega
    rw [this, Nat.mul_div_cancel_left _ (by omega)]
  rw [this]
  have : n * (m / n + 1) = n * (m/n) + n := by ring
  omega

/-- Dividing by a positive integer does not enlarge. -/
theorem roundHAZ_natAbs_le (c q : Int) (h : 1 ≤ q) : (roundHAZ c q).natAbs ≤ c.natAbs := by
  have h3 := roundHAZ_near c (b := q) (by omega)
  by_contra hh
  push Not at hh
  have : (roundHAZ c q).natAbs ≥ c.natAbs + 1 := by omega
  have h5 : (q * roundHAZ c q).natAbs = q.natAbs * (roundHAZ c q).natAbs := Int.natAbs_mul _ _
  have h6 : q.natAbs * (roundHAZ c q).natAbs ≥ q.natAbs * (c.natAbs + 1) := Nat.mul_le_mul_left _ this
  have h7 : q.natAbs * (c.natAbs + 1) = q.natAbs * c.natAbs + q.natAbs := by ring
  have h8 : q.natAbs * c.natAbs ≥ c.natAbs := Nat.le_mul_of_pos_left _ (by omega)
  omega

/-- Sign extension keeps the value. -/
theorem toInt_signExtend_of_le (w v : Nat) (h : v ≤ w) (x : BitVec v) : (x.signExtend w).toInt = x.toInt := by
  rw [BitVec.toInt_signExtend_of_le h]

/-- A sum that fits is exact. -/
theorem toInt_add_of_bounds {w : Nat} (x y : BitVec w) (B : Int) (hB : 2 * B = 2^w) (h : -B ≤ x.toInt + y.toInt) (h' : x.toInt + y.toInt < B) :
    (x + y).toInt = x.toInt + y.toInt := by
  rw [BitVec.toInt_add]
  have e : ((2^w : Nat) : Int) = 2^w := by push_cast; rfl
  apply Int.bmod_eq_of_le <;> omega

/-- A difference that fits is exact. -/
theorem toInt_sub_of_bounds {w : Nat} (x y : BitVec w) (B : Int) (hB : 2 * B = 2^w) (h : -B ≤ x.toInt - y.toInt) (h' : x.toInt - y.toInt < B) :
    (x - y).toInt = x.toInt - y.toInt := by
  rw [BitVec.toInt_sub]
  have e : ((2^w : Nat) : Int) = 2^w := by push_cast; rfl
  apply Int.bmod_eq_of_le <;> omega

/-- A product that fits is exact. -/
theorem toInt_mul_of_bounds {w : Nat} (x y : BitVec w) (B : Int) (hB : 2 * B = 2^w) (h : -B ≤ x.toInt * y.toInt) (h' : x.toInt * y.toInt < B) :
    (x * y).toInt = x.toInt * y.toInt := by
  rw [BitVec.toInt_mul]
  have e : ((2^w : Nat) : Int) = 2^w := by push_cast; rfl
  apply Int.bmod_eq_of_le <;> omega

end Sys2Proof.Machine
end

