-- ==== Sys2Proof/Laws/Window.lean ====
section
/-! SUPPORT. The registers of the window at their offsets, and the accesses at an aligned offset inside it. -/

namespace Sys2Proof.Machine

/-- R24: SAMPLE[k] stands at 0x100 + 4k. -/
theorem locOf_sampleOffset (k : Fin 64) : locOf (0x100 + 4 * k.val) = .sample k := by
  unfold locOf; rw [if_neg (by omega), if_pos (by omega)]; congr 1; apply Fin.ext; simp only [entry]; omega

/-- R24: DIV[k] stands at 0x200 + 4k. -/
theorem locOf_divOffset (k : Fin 64) : locOf (0x200 + 4 * k.val) = .div k := by
  unfold locOf; rw [if_neg (by omega), if_neg (by omega), if_pos (by omega)]; congr 1; apply Fin.ext; simp only [entry]; omega

/-- R24: COEF[k] stands at 0x300 + 4k. -/
theorem locOf_coefOffset (k : Fin 64) : locOf (0x300 + 4 * k.val) = .coef k := by
  unfold locOf; rw [if_neg (by omega), if_neg (by omega), if_neg (by omega), if_pos (by omega)]; congr 1; apply Fin.ext; simp only [entry]; omega

/-- R24: QOUT[k] stands at 0x400 + 4k. -/
theorem locOf_qoutOffset (k : Fin 64) : locOf (0x400 + 4 * k.val) = .qout k := by
  unfold locOf; rw [if_neg (by omega), if_neg (by omega), if_neg (by omega), if_neg (by omega), if_pos (by omega)]; congr 1; apply Fin.ext; simp only [entry]; omega

/-- R24: the reserved offsets. -/
theorem locOf_reservedOffset (off : Nat) (h : off % 4 = 0) (h2 : (0x020 ≤ off ∧ off < 0x100) ∨ (0x500 ≤ off ∧ off < 0x1000)) :
    locOf off = .reserved := by
  unfold locOf
  split_ifs <;> try omega
  · split <;> first | rfl | omega
  · rfl

/-- An aligned write inside the window is a write of its register. -/
theorem memWrite_aligned (off : Nat) (w : Word) (s : State) (h : off % 4 = 0) (h2 : off < 0x1000) :
    memWrite off 4 w s = .next (writeLoc (locOf off) w s) :=
  memWrite_eq_next.2 ⟨rfl, h, h2, rfl⟩

/-- An aligned read inside the window is a read of its register. -/
theorem memRead_aligned (off : Nat) (s : State) (h : off % 4 = 0) (h2 : off < 0x1000) :
    memRead off 4 s = .next (readLoc (locOf off) s) :=
  memRead_eq_next.2 ⟨rfl, h, h2, rfl⟩

/-- A read of an idle device, or of a register no command writes, answers the register (R74, R77). -/
theorem readLoc_of_fixed (l : Loc) (s : State) (h : s.busy = false ∨ l.openWhileBusy = false) :
    readLoc l s = (s.view l, s) := by
  unfold readLoc; rcases h with h | h <;> simp [h]

/-- CTRL as a number. -/
theorem ctrlWord_eq (s : State) : s.ctrlWord = BitVec.ofNat 32 s.ie.toNat := by
  unfold State.ctrlWord; cases s.ie <;> rfl

/-- STATUS as a number. -/
theorem statusWord_eq (s : State) :
    s.statusWord = BitVec.ofNat 32 (s.busy.toNat + 2 * s.done.toNat + 4 * s.err.toNat + 8 * s.ovr.toNat + 16 * s.bwe.toNat) := by
  unfold State.statusWord; cases s.busy <;> cases s.done <;> cases s.err <;> cases s.ovr <;> cases s.bwe <;> rfl

/-- ERRINFO as a number. -/
theorem errinfoWord_eq (s : State) :
    s.errinfoWord = BitVec.ofNat 32 (s.errCode.toNat + 0x100 * s.errPos.toNat + 0x10000 * s.errOp.toNat) := by
  unfold State.errinfoWord
  generalize s.errCode = a; generalize s.errPos = b; generalize s.errOp = c
  apply BitVec.eq_of_toNat_eq
  simp only [BitVec.toNat_setWidth, BitVec.toNat_append, BitVec.toNat_ofNat]
  have := a.isLt; have := b.isLt; have := c.isLt
  rw [← Nat.shiftLeft_add_eq_or_of_lt (by omega), ← Nat.shiftLeft_add_eq_or_of_lt (by omega), ← Nat.shiftLeft_add_eq_or_of_lt (by omega), ← Nat.shiftLeft_add_eq_or_of_lt (by omega)]
  simp only [Nat.shiftLeft_eq, show (0 : BitVec 2).toNat = 0 from rfl, show (0 : BitVec 4).toNat = 0 from rfl]
  omega

/-- CFG as a number. -/
theorem cfgWord_eq (s : State) : s.cfgWord = BitVec.ofNat 32 (0x800 + s.bits.toNat) := by
  unfold State.cfgWord
  generalize s.bits = a
  revert a; decide

/-- A buffer entry stands at one aligned offset only. -/
theorem locOf_injective_on_buffers {a b : Nat} (h1 : a % 4 = 0) (h2 : b % 4 = 0) (ha : a < 0x1000) (hb : b < 0x1000) (hb2 : 0x100 ≤ b) (hb3 : b < 0x500) (h : locOf a = locOf b) :
    a = b := by
  unfold locOf at h
  split_ifs at h <;> try omega
  all_goals try (simp [entry] at h; omega)
  all_goals (split at h <;> simp_all)

/-- On an idle engine a guarded write happens. -/
theorem unlessBusy_idle (s : State) (f : State → State) (hb : s.busy = false) : s.unlessBusy f = f s := by
  unfold State.unlessBusy; rw [if_neg (by simp [hb])]

/-- R205, R24: two instances are at two BASEs, each 4 KiB aligned, so their windows do not meet. -/
theorem windows_disjoint {s t : State} (h : s.inst ≠ t.inst) :
    s.base + 0x1000 ≤ t.base ∨ t.base + 0x1000 ≤ s.base := by
  have hne : Config.basePage s.inst ≠ Config.basePage t.inst := fun he => h (Config.basePage.injective he)
  unfold State.base
  omega

end Sys2Proof.Machine
end

