-- ==== Sys2Proof/Tests/Slice0.lean ====
section
/-! SUPPORT. The model's own tests, with results taken from spec/ (tables and derived vectors, not from this model), and for each statement
with hypotheses one witness that meets all of them. -/

namespace Sys2Proof.Tests

open Sys2Proof.Machine

/-! ## Small states -/

/-- The device with every SAMPLE at `fill` and one more entry set. -/
def sampled (fill : Half) (k : Fin 64) (v : Half) : State :=
  { State.reset with sample := (Vector.replicate 64 fill).set k v }

/-- The device with every COEF at `c`. -/
def coefficients (c : Word) : State := { State.reset with coef := Vector.replicate 64 c }

/-- The device with one divisor of the ramp replaced. -/
def divisorAt (k : Fin 64) (q : Half) : State := { State.reset with div := ramp.set k q }

/-- The device with a command accepted and not completed. -/
def busyWith (w : Word) : State := State.reset.accept w

/-- The device with a host program and the turns to come. -/
def hosted (prog : List HostOp) (turns : List Turn) : State :=
  { State.reset with hostProg := prog, turns := turns }

/-- What a step leaves, seen through a function; the default where it stops. -/
def after (i : Instr) (s : State) : State :=
  match exec i s with
  | .next t => t
  | .fault _ => s
  | .refused _ => s

/-- A word whose decoding fails is no command. -/
theorem not_command {w : Word} {e : DecodeError} (h : decode w = .error e) : ∀ i, decode w ≠ .ok i := by
  intro i hi; rw [hi] at h; cases h

/-! ## Well-formedness (R106) -/

theorem test_wellFormed_accepts : (Instr.lddiv 0).wellFormed = true ∧ (Instr.fdct 7 15).wellFormed = true := by decide
theorem test_wellFormed_refuses_reserved_table :
    (Instr.lddiv 1).wellFormed = false ∧ (Instr.lddiv 15).wellFormed = false := by decide

/-! ## Decoding and encoding: words written from R100 to R102 and from 95_test_vectors -/

theorem test_decode_nop : decode 0b00000000000000000000000000000000#32 = .ok .nop := rfl
/- RSV 000000000000, TBL 0000, COLS 0101, ROWS 1010, OP 00000001 -/
theorem test_decode_fdct : decode 0b00000000000000000101101000000001#32 = .ok (.fdct 10 5) := rfl
theorem test_decode_quant : decode 0b00000000000000000101101000000010#32 = .ok (.quant 10 5) := rfl
theorem test_decode_fdctq : decode 0b00000000000000000101101000000011#32 = .ok (.fdctq 10 5) := rfl
theorem test_decode_lddiv : decode 0b00000000000000000000000000000100#32 = .ok (.lddiv 0) := rfl
theorem test_encode_canonical :
    encode (.fdct 8 8) = 0x00008801 ∧ encode (.quant 8 8) = 0x00008802 ∧ encode (.fdctq 8 8) = 0x00008803 ∧
    encode (.lddiv 0) = 0x00000004 ∧ encode .nop = 0 ∧ encode (.lddiv 1) = 0x00010004 ∧
    encode (.quant 7 8) = 0x00008702 := by decide
theorem test_decode_illegal_by_name :
    decode 0x00000005 = .error .reservedOpcode ∧ decode 0x000000FF = .error .reservedOpcode ∧
    decode 0x00108801 = .error .reservedBits ∧ decode 0x00010004 = .error .reservedTable ∧
    decode 0x00000800 = .error .shapeNotAllowed ∧ decode 0x00018801 = .error .tableNotAllowed ∧
    decode 0x00001004 = .error .shapeNotAllowed := ⟨rfl, rfl, rfl, rfl, rfl, rfl, rfl⟩
theorem test_decodeBytes_little_endian :
    decodeBytes [0x01, 0x78, 0, 0, 0xAA] = .ok (.fdct 8 7, [0xAA]) ∧ decodeBytes [1, 0, 0] = .error .truncated := ⟨rfl, rfl⟩
theorem test_decodeTableWord : decodeTableWord 32 0x8801 = some (.fdct 8 8) ∧ decodeTableWord 32 5 = none := ⟨rfl, rfl⟩
theorem test_assembler_ranges :
    asmFdct 8 8 = some 0x8801 ∧ asmFdct 16 8 = none ∧ asmLddiv 16 = none ∧ asmQuant 7 8 = some 0x8702 ∧
    asmFdctq 8 8 = some 0x8803 := by decide

/-! ## The ROM: the hexadecimal copy of the table in R47, and the map of R46 -/

theorem test_rom_magnitudes : magnitudeRows =
    [ [0xF641AF4, 0xE7F7F7E, 0xD0C428D, 0xB18A859, 0x8B7E3EE, 0x6015A52, 0x30FBC55],
      [0xE7F7F7E, 0xDA8279A, 0xC4A74C2, 0xA73D749, 0x836650E, 0x5A8279A, 0x2E2434B],
      [0xD0C428D, 0xC4A74C2, 0xB0FBC55, 0x9683178, 0x7641AF4, 0x5174E06, 0x2986B45],
      [0xB18A859, 0xA73D749, 0x9683178, 0x8000000, 0x6491A70, 0x4545E9F, 0x2350ABC],
      [0x8B7E3EE, 0x836650E, 0x7641AF4, 0x6491A70, 0x4F043AB, 0x366D726, 0x1BBF35A],
      [0x6015A52, 0x5A8279A, 0x5174E06, 0x4545E9F, 0x366D726, 0x257D866, 0x131CC6A],
      [0x30FBC55, 0x2E2434B, 0x2986B45, 0x2350ABC, 0x1BBF35A, 0x131CC6A, 0x09BE50C] ] := by decide

/-- A row of the map of R46, as signed indexes. -/
def mapRow (k : Fin 8) : List Int := (List.finRange 8).map fun n => (angle k n).2 * (angle k n).1

theorem test_rom_map : (List.finRange 8).map mapRow =
    [ [4, 4, 4, 4, 4, 4, 4, 4], [1, 3, 5, 7, -7, -5, -3, -1], [2, 6, -6, -2, -2, -6, 6, 2],
      [3, -7, -1, -5, 5, 1, 7, -3], [4, -4, -4, 4, 4, -4, -4, 4], [5, -1, 7, 3, -3, -7, 1, -5],
      [6, -2, 2, -6, -6, 2, -2, 6], [7, -5, 3, -1, 1, -3, 5, -7] ] := by decide

/-! ## The commands, by the vectors of 95_test_vectors -/

theorem test_nop_step : ∃ t, step (State.reset.withFetchWord 32 0) = .next t ∧
    t.statusWord = 0x00000002 ∧ t.cmdlast = 0 ∧ t.errinfoWord = 0 := ⟨_, rfl, by decide⟩ -- V-N1

/-- V-F8, rows 1 and 3: the impulse at row 1, column 2 tells rows from columns. -/
theorem test_fdct_impulse :
    let m := (after (.fdct 8 8) (sampled 128 10 255)).coef
    (List.finRange 8).map (fun v => (m[idx 1 v]).toInt) = [19, 15, -10, -26, -19, 5, 24, 22] ∧
    (List.finRange 8).map (fun v => (m[idx 3 v]).toInt) = [-4, -3, 2, 6, 4, -1, -6, -5] := by decide +kernel

/-- V-F6: negative ties go outward. -/
theorem test_fdct_negative_tie :
    let m := (after (.fdct 8 8) (sampled 128 0 124)).coef
    m[idx 0 0] = 0xFFFFFFFF ∧ m[idx 0 4] = 0xFFFFFFFF ∧ m[idx 4 4] = 0xFFFFFFFF ∧ m[idx 0 5] = 0 := by decide +kernel

/-- V-Q21, the masks. -/
theorem test_quant_mask :
    (after (.quant 8 8) (coefficients 7)).nzmask = 0x00000103070F1F3F := by decide +kernel

/-- V-Q2 to V-Q20, the lanes: ties, signs and the extremes. -/
theorem test_quant_lanes :
    quantLane 7 3 = 2 ∧ quantLane (-7) 3 = -2 ∧ quantLane 3 2 = 2 ∧ quantLane (-3) 2 = -2 ∧ quantLane (-1) 2 = -1 ∧
    quantLane 1 3 = 0 ∧ quantLane 5 10 = 1 ∧ quantLane 4 10 = 0 ∧ quantLane (-14) 4 = -4 ∧
    quantLane 0x80000000 1 = 0x80000000 ∧ quantLane 0x7FFFFFFF 1 = 0x7FFFFFFF ∧
    quantLane 0x80000000 32767 = 0xFFFEFFFE ∧ quantLane 0x7FFFFFFF 32767 = 0x00010002 := by decide +kernel

/-- V-P1: the fused command on the impulse at the origin. -/
theorem test_fdctq_impulse :
    let t := after (.fdctq 8 8) (sampled 128 0 255)
    t.nzmask = 0x00071F3F3F7F7F7F ∧ t.coef[idx 0 1] = 22 ∧ t.qout[idx 0 0] = 5 ∧ t.qout[idx 4 1] = 2 := by decide +kernel

/-- V-E6: the last divisor is invalid; COEF is unchanged as well. -/
theorem test_fdctq_divisor :
    let t := after (.fdctq 8 8) (divisorAt 63 0x8000)
    t.errinfoWord = 0x00033F02 ∧ t.statusWord = 0x6 ∧ t.coef = State.reset.coef := by decide +kernel

/-- V-L1. -/
theorem test_lddiv_ramp :
    let t := after (.lddiv 0) (divisorAt 10 0)
    t.view (.div 10) = 0x9 ∧ t.view (.div 63) = 0x1F := by decide +kernel

/-- The error vectors of 95_test_vectors: the word, the state, and what ERRINFO reads. -/
def errinfoAfter (w : Word) (s : State) : Option Word :=
  match step (s.withCommand w) with
  | .next t => if t.statusWord = 6 then some t.errinfoWord else none
  | .fault _ => none
  | .refused _ => none

theorem test_error_vectors :
    errinfoAfter 0x00007701 State.reset = some 0x00010001 ∧          -- V-E1
    errinfoAfter 0x00008802 (divisorAt 10 0) = some 0x00020A02 ∧     -- V-E3
    errinfoAfter 0x00008802 (divisorAt 0 0xFFFF) = some 0x00020002 ∧ -- V-E4
    errinfoAfter 0x00008702 (divisorAt 0 0) = some 0x00020001 ∧      -- V-E7
    errinfoAfter 0x00000005 State.reset = some 0x00050003 ∧          -- V-E8
    errinfoAfter 0x00108801 State.reset = some 0x00010003 ∧          -- V-E9
    errinfoAfter 0x00010004 State.reset = some 0x00040003 ∧          -- V-E10
    errinfoAfter 0x00000800 State.reset = some 0x00000003 := by      -- V-E11
  decide +kernel

/-! ## The window, by the vectors V-M -/

theorem test_window_reads :
    State.reset.view (locOf 0x000) = 0x44435438 ∧ State.reset.view (locOf 0x014) = 0x00000808 ∧
    State.reset.view (locOf 0x020) = 0 ∧ State.reset.view (locOf 0x0FC) = 0 ∧
    State.reset.view (locOf 0x500) = 0 ∧ State.reset.view (locOf 0xFFC) = 0 := by decide

theorem test_window_writes :
    (writeLoc (locOf 0x014) 0x10 State.reset).cfgWord = 0x00000810 ∧         -- V-M3
    (writeLoc (locOf 0x014) 0 State.reset).bits = 8 ∧                        -- V-M4
    (writeLoc (locOf 0x014) 0x11 State.reset).bits = 8 ∧                     -- V-M5
    (writeLoc (locOf 0x100) 0x12348001 State.reset).view (.sample 0) = 0xFFFF8001 ∧ -- V-M6
    (writeLoc (locOf 0x200) 0x00010003 State.reset).view (.div 0) = 3 ∧      -- V-Q23
    writeLoc (locOf 0x400) 5 State.reset = State.reset := by decide +kernel  -- V-M8

theorem test_busy_writes :
    (writeLoc (locOf 0x100) 1 (busyWith 0)).statusWord = 0x11 ∧              -- V-M9
    (writeLoc (locOf 0x00C) 5 (busyWith 0)).statusWord = 0x09 ∧              -- V-M10
    (writeLoc (locOf 0x00C) 5 (busyWith 0)).cmdlast = 0 := by decide

theorem test_status_clear :
    (State.clearStatus 4 { State.reset with done := true, err := true, ovr := true, bwe := true }).statusWord = 0x1A := by
  decide                                                                     -- V-M11

/-- P3: the second CMD write meets a busy engine or an idle one, by the turns. -/
theorem test_race_admits_both :
    let prog : List HostOp := [.sw 0x00C 0, .sw 0x00C 0]
    (∃ t, runSteps 2 (hosted prog [.host, .host]) = .next t ∧ t.ovr = true) ∧
    (∃ t, runSteps 3 (hosted prog [.host, .engine, .host]) = .next t ∧ t.ovr = false ∧ t.busy = true) :=
  ⟨⟨_, rfl, rfl⟩, ⟨_, rfl, rfl, rfl⟩⟩

/-! ## Witnesses: for each statement with hypotheses, a state and operands that meet all of them -/

theorem witness_DecodeOfEncode : (Instr.fdctq 15 0).wellFormed = true ∧ (Instr.lddiv 0).wellFormed = true := by decide
theorem witness_EncodeOfDecode : decode 0x0000F003 = .ok (.fdctq 0 15) ∧ decode 4 = .ok (.lddiv 0) := ⟨rfl, rfl⟩

/-- One illegal word for each case, at the ends of its range, and an idle engine. -/
theorem witness_IllegalWordsAreAcceptedAndFail :
    (∀ i, decode 0x00000005 ≠ .ok i) ∧ (∀ i, decode 0x000000FF ≠ .ok i) ∧ (∀ i, decode 0x00100000 ≠ .ok i) ∧
    (∀ i, decode 0x80008801 ≠ .ok i) ∧ (∀ i, decode 0x00010000 ≠ .ok i) ∧ (∀ i, decode 0x000F0003 ≠ .ok i) ∧
    (∀ i, decode 0x00000100 ≠ .ok i) ∧ (∀ i, decode 0x0000F004 ≠ .ok i) ∧ (∀ i, decode 0x00010004 ≠ .ok i) ∧
    (∀ i, decode 0x000F0004 ≠ .ok i) ∧ State.reset.busy = false :=
  ⟨not_command rfl, not_command rfl, not_command rfl, not_command rfl, not_command rfl, not_command rfl,
    not_command rfl, not_command rfl, not_command rfl, not_command rfl, rfl⟩

theorem witness_IdleCmdWriteIsAccepted : State.reset.busy = false ∧ ∃ t, memWrite 0x100 4 1 (busyWith 0) = .next t := ⟨rfl, _, rfl⟩
theorem witness_BusyCmdWriteIsOverrun : (busyWith 0x8801).busy = true := rfl

theorem witness_StepRunsDecodedCommand :
    (busyWith 0x8801).nextTurn = .engine ∧ (busyWith 0x8801).busy = true ∧ (busyWith 0x8801).pending = some 0x8801 ∧
    decode 0x8801 = .ok (.fdct 8 8) := ⟨rfl, rfl, rfl, rfl⟩

theorem witness_StepFailsIllegalWord :
    (busyWith 5).nextTurn = .engine ∧ (busyWith 5).busy = true ∧ (busyWith 5).pending = some 5 ∧
    (∀ i, decode 5 ≠ .ok i) := ⟨rfl, rfl, rfl, not_command rfl⟩

theorem witness_HostIssuesThenEngineCompletes :
    let s := hosted [.sw 0x00C (encode (.quant 8 8))] [.host, .engine, .host]
    (Instr.quant 8 8).wellFormed = true ∧ s.busy = false ∧ s.turns = .host :: .engine :: [.host] ∧
    s.hostProg[s.hostPc]? = some (.sw 0x00C (encode (.quant 8 8))) := ⟨rfl, rfl, rfl, rfl⟩

/-- ERR is already set before NOP; LDDIV changes a DIV that is not the ramp. -/
theorem witness_EveryCommandCompletes :
    (∃ t, exec .nop { State.reset with err := true } = .next t ∧ t.err = true) ∧
    ∃ t, exec (.lddiv 0) (divisorAt 0 0) = .next t ∧ t.div ≠ (divisorAt 0 0).div :=
  ⟨⟨_, rfl, rfl⟩, ⟨_, rfl, by decide +kernel⟩⟩

/-- An illegal word, and a command. -/
theorem witness_CompletedEngineAcceptsNext :
    (∃ t, completeWord 5 (busyWith 5) = .next t) ∧ ∃ t, exec (.fdct 7 7) (busyWith 0x7701) = .next t := ⟨⟨_, rfl⟩, _, rfl⟩

/-- The ends of the range of BITS. -/
theorem witness_FdctComputesTransform :
    let low := { State.reset with bits := 1 }
    let high := { State.reset with bits := 16 }
    (1 ≤ low.bits.toNat ∧ low.bits.toNat ≤ 16) ∧ (1 ≤ high.bits.toNat ∧ high.bits.toNat ≤ 16) := by decide

theorem witness_WrongShapeFails : ((7 : BitVec 4) ≠ 8 ∨ (8 : BitVec 4) ≠ 8) ∧ ((8 : BitVec 4) ≠ 8 ∨ (9 : BitVec 4) ≠ 8) := by
  decide

/-- The first and the last position. -/
theorem witness_BadDivisorFailsAtSmallestPosition :
    (((divisorAt 0 0).div[(0 : Fin 64)]).toInt ≤ 0 ∧ ∀ j : Fin 64, j < 0 → 0 < ((divisorAt 0 0).div[j]).toInt) ∧
    (((divisorAt 63 0xFFFF).div[(63 : Fin 64)]).toInt ≤ 0 ∧
      ∀ j : Fin 64, j < 63 → 0 < ((divisorAt 63 0xFFFF).div[j]).toInt) := by decide +kernel

/-- Every divisor of the ramp is positive, and BITS is legal. -/
theorem witness_QuantDividesAndMasks : ∀ k : Fin 64, 0 < (State.reset.div[k]).toInt := by decide +kernel
theorem witness_FdctqTransformsThenQuantizes :
    1 ≤ State.reset.bits.toNat ∧ State.reset.bits.toNat ≤ 16 ∧ ∀ k : Fin 64, 0 < (State.reset.div[k]).toInt := by
  decide +kernel
theorem witness_FdctqEqualsFdctThenQuant : ∀ k : Fin 64, 0 < ((sampled 128 0 255).div[k]).toInt := by decide +kernel

theorem witness_LddivLoadsRamp : ∃ t, exec (.lddiv 0) (divisorAt 10 0) = .next t := ⟨_, rfl⟩
theorem witness_LddivReservedTableFails : (1 : BitVec 4) ≠ 0 ∧ (15 : BitVec 4) ≠ 0 := by decide

/-- A success and a failure, at offsets next to STATUS, ERRINFO and the outputs. -/
theorem witness_CommandsWriteOnlyTheirOutputs :
    (∃ t, exec (.fdct 8 8) State.reset = .next t ∧ t.err = false) ∧ (∃ t, exec (.fdct 7 7) State.reset = .next t ∧ t.err = true) ∧
    (statusOffset 0x007 = false ∧ errinfoOffset 0x007 = false) ∧ (statusOffset 0x00C = false ∧ errinfoOffset 0x00C = false) ∧
    (statusOffset 0x2FF = false ∧ outputOffset (.fdct 8 8) 0x2FF = false) ∧
    (statusOffset 0x400 = false ∧ outputOffset (.fdct 8 8) 0x400 = false) :=
  ⟨⟨_, rfl, rfl⟩, ⟨_, rfl, rfl⟩, by decide, by decide, by decide, by decide⟩

/-- Each clause: an illegal word, a wrong shape with a bad divisor beside it, a bad divisor, and a success. -/
theorem witness_ErrorsAreReportedInOrder :
    ((∃ t, completeWord 5 State.reset = .next t) ∧ ∀ i, decode 5 ≠ .ok i) ∧
    ((∃ t, completeWord 0x8702 (divisorAt 0 0) = .next t) ∧ decode 0x8702 = .ok (.quant 7 8) ∧
      ((7 : BitVec 4) ≠ 8 ∨ (8 : BitVec 4) ≠ 8)) ∧
    ((∃ t, completeWord 0x8803 (divisorAt 0 0) = .next t) ∧ decode 0x8803 = .ok (.fdctq 8 8) ∧
      ((divisorAt 0 0).div[(0 : Fin 64)]).toInt ≤ 0 ∧ ∀ j : Fin 64, j < 0 → 0 < ((divisorAt 0 0).div[j]).toInt) ∧
    ((∃ t, completeWord 0x8802 State.reset = .next t) ∧ decode 0x8802 = .ok (.quant 8 8) ∧
      ∀ k : Fin 64, 0 < (State.reset.div[k]).toInt) :=
  ⟨⟨⟨_, rfl⟩, not_command rfl⟩, ⟨⟨_, rfl⟩, rfl, by decide⟩, ⟨⟨_, rfl⟩, rfl, by decide +kernel, by decide +kernel⟩,
    ⟨_, rfl⟩, rfl, by decide +kernel⟩

/-- Two states that differ in everything but the operands of FDCT. -/
theorem witness_OutputsDependOnOperandsOnly :
    let a := State.reset
    let b := { State.reset with coef := Vector.replicate 64 9, ovr := true }
    a.sample = b.sample ∧ a.bits = b.bits ∧ a.div = b.div ∧ (∀ k : Fin 64, 0 < (a.div[k]).toInt) ∧
    (∃ t, exec (.fdct 8 8) a = .next t) ∧ (∃ t, exec (.fdct 8 8) b = .next t) ∧
    (∃ t, exec (.fdctq 8 8) a = .next t) ∧ (∃ t, exec (.fdctq 8 8) b = .next t) ∧
    a.coef = (sampled 1 0 1).coef ∧ a.div = (sampled 1 0 1).div ∧
    (∃ t, exec (.quant 8 8) a = .next t) ∧ (∃ t, exec (.quant 8 8) (sampled 1 0 1) = .next t) :=
  ⟨rfl, rfl, rfl, by decide +kernel, ⟨_, rfl⟩, ⟨_, rfl⟩, ⟨_, rfl⟩, ⟨_, rfl⟩, rfl, rfl, ⟨_, rfl⟩, ⟨_, rfl⟩⟩

/-- The ties −3/2 and 1/2. -/
theorem witness_RoundHazIsNearestTiesOutward :
    ((0 : Int) < 2 ∧ 2 * ((-3 : Int).natAbs % (2 : Int).natAbs) = (2 : Int).natAbs) ∧
    2 * ((1 : Int).natAbs % (2 : Int).natAbs) = (2 : Int).natAbs := by decide
theorem witness_RoundingUnitIsRoundHaz : (2 ^ 29 : Int).natAbs % 2 ^ 30 = 2 ^ 29 ∧ (-2 ^ 29 : Int).natAbs % 2 ^ 30 = 2 ^ 29 := by
  decide
theorem witness_ButterflyEqualsDirectSum :
    (1 ≤ (1 : BitVec 5).toNat ∧ (1 : BitVec 5).toNat ≤ 16) ∧ 1 ≤ (16 : BitVec 5).toNat ∧ (16 : BitVec 5).toNat ≤ 16 := by decide

/-- The two ends of the range of R120 at once. -/
theorem witness_TransformNeverOverflows :
    ∀ x y : Fin 8, (-65536 : Int) ≤ (if x = y then -65536 else 32766) ∧ (if x = y then (-65536 : Int) else 32766) ≤ 32766 := by
  decide
theorem witness_LevelShiftRange : 1 ≤ (16 : BitVec 5).toNat ∧ (16 : BitVec 5).toNat ≤ 16 := by decide
theorem witness_DcAndExactOutputs :
    1 ≤ State.reset.bits.toNat ∧ State.reset.bits.toNat ≤ 16 ∧ ((0 : Fin 8) = 0 ∨ (0 : Fin 8) = 4) ∧
    ((4 : Fin 8) = 0 ∨ (4 : Fin 8) = 4) := by decide
theorem witness_ConstantShiftBlockGivesZero :
    let s := sampled 128 0 128
    ∀ k : Fin 64, (s.sample[k]).toInt = 2 ^ (s.bits.toNat - 1) := by decide +kernel

/-- The result of magnitude 2^31 at q = 1, and a tie at position 63. -/
theorem witness_QuantLaneIsExactRoundedQuotient :
    let s := { coefficients 0x80000000 with div := Vector.replicate 64 1 }
    let u := { coefficients 5 with div := Vector.replicate 64 10 }
    (∀ k : Fin 64, 0 < (s.div[k]).toInt) ∧ ((after (.quant 8 8) s).qout[(0 : Fin 64)]).toInt.natAbs = 2 ^ 31 ∧
    (∀ k : Fin 64, 0 < (u.div[k]).toInt) ∧
    2 * ((u.coef[(63 : Fin 64)]).toInt.natAbs % (u.div[(63 : Fin 64)]).toInt.natAbs) = (u.div[(63 : Fin 64)]).toInt.natAbs := by
  decide +kernel
theorem witness_QuantLaneZeroExactly :
    let s := { coefficients 5 with div := Vector.replicate 64 10 }
    (∀ k : Fin 64, 0 < (s.div[k]).toInt) ∧ (s.div[(0 : Fin 64)]).toInt ≤ 2 * ((s.coef[(0 : Fin 64)]).toInt.natAbs : Int) ∧
    ((s.coef[(0 : Fin 64)]).toInt.natAbs : Int) < (s.div[(0 : Fin 64)]).toInt := by decide +kernel
theorem witness_ZeroCoefficientsQuantizeToZero :
    (∀ k : Fin 64, State.reset.coef[k] = 0) ∧ ∀ k : Fin 64, 0 < (State.reset.div[k]).toInt := by decide +kernel

theorem witness_ExactRomEntries : ((0 : Fin 8) = 0 ∨ (0 : Fin 8) = 4) ∧ ((4 : Fin 8) = 0 ∨ (4 : Fin 8) = 4) := by decide

/-- The zero block is farther than its bound, which is 0, from every half-integer. -/
theorem witness_FixedPointDistanceFromFormula :
    (∀ m : ℤ, (∑ _x : Fin 8, ∑ _y : Fin 8, |((0 : Int) : ℝ)|) / 2 ^ 31 <
      |Formula.realDct (fun _ _ => 0) 1 1 - ((m : ℝ) + 1 / 2)|) ∧
    ((4 : Fin 8) = 0 ∨ (4 : Fin 8) = 4) := by
  refine ⟨fun m => ?_, by decide⟩
  have h : Formula.realDct (fun _ _ => 0) 1 1 = 0 := by simp [Formula.realDct]
  have hm : (m : ℝ) + 1 / 2 ≠ 0 := by
    intro h0
    have h1 : (2 * m + 1 : ℝ) = 0 := by linarith
    have h2 : 2 * m + 1 = 0 := by exact_mod_cast h1
    omega
  rw [h, show (∑ _x : Fin 8, ∑ _y : Fin 8, |((0 : Int) : ℝ)|) / 2 ^ 31 = 0 by simp, zero_sub, abs_neg]
  exact abs_pos.2 hm

/-- The ends of the ranges that the clause of ignored writes speaks of. -/
theorem witness_HostWriteTable :
    ∀ off ∈ [0x000, 0x010, 0x018, 0x020, 0x0FC, 0x400, 0x4FC, 0x500, 0xFFC], off % 4 = 0 ∧ off < 0x1000 ∧ off ≠ 0x004 ∧ off ≠ 0x008 ∧
      off ≠ 0x00C ∧ off ≠ 0x014 ∧ (off < 0x100 ∨ 0x400 ≤ off) := by decide
theorem witness_IdleReadTable :
    State.reset.busy = false ∧
    ∀ off ∈ [0x020, 0x0FC, 0x500, 0xFFC], off % 4 = 0 ∧ ((0x020 ≤ off ∧ off < 0x100) ∨ (0x500 ≤ off ∧ off < 0x1000)) := by decide
theorem witness_BusyReadTable :
    (busyWith 0).busy = true ∧
    (∀ off ∈ [0x020, 0x0FC, 0x500, 0xFFC], off % 4 = 0 ∧ ((0x020 ≤ off ∧ off < 0x100) ∨ (0x500 ≤ off ∧ off < 0x1000))) ∧
    ∀ off ∈ [0x010, 0x018, 0x01C, 0x200, 0x2FC, 0x300, 0x400, 0x4FC],
      off % 4 = 0 ∧ (off = 0x010 ∨ off = 0x018 ∨ off = 0x01C ∨ (0x200 ≤ off ∧ off < 0x500)) := by decide
theorem witness_BufferReadAfterWrite :
    State.reset.busy = false ∧
    ∀ k ∈ [(0 : Fin 64), 63], ∀ off ∈ [0x0FC, 0x104, 0x1F8, 0x200, 0xFFC], off % 4 = 0 ∧ off < 0x1000 ∧ off ≠ 0x100 + 4 * k.val := by
  decide
theorem witness_ByteLanesAreLittleEndian : 0x104 % 4 = 0 ∧ 0xFFC % 4 = 0 := by decide
theorem witness_SubwordAccessIsRefused : ((2 ≠ 4 ∨ 0x100 % 4 ≠ 0) ∧ (8 ≠ 4 ∨ 0x100 % 4 ≠ 0)) ∧ (4 ≠ 4 ∨ 0x102 % 4 ≠ 0) := by decide

/-- A write at the first offset and a read at the last, and the addresses on both sides of the window. -/
theorem witness_MasterAccessesReachTheWindow :
    let s := hosted [] [.bus (.write (State.reset.base + 0) 4 7), .host]
    let r := hosted [] [.bus (.read (State.reset.base + 0xFFC) 4)]
    let o := hosted [] [.bus (.read (State.reset.base + 0x1000) 4)]
    (s.turns = .bus (.write (s.base + 0) 4 7) :: [.host] ∧ ∃ a, memWrite 0 4 7 { s with turns := [.host] } = .next a) ∧
    (r.turns = .bus (.read (r.base + 0xFFC) 4) :: [] ∧ ∃ p, memRead 0xFFC 4 { r with turns := [] } = .next p) ∧
    ((o.base + 0x1000) % 4 = 0 ∧ o.base + 0x1000 ≤ o.base + 0x1000 ∧ o.turns = .bus (.read (o.base + 0x1000) 4) :: []) := by
  refine ⟨⟨rfl, _, memWrite_aligned _ _ _ (by decide) (by decide)⟩, ⟨rfl, _, memRead_aligned _ _ (by decide) (by decide)⟩, ?_, le_refl _, rfl⟩
  unfold State.base; omega

/-- Each event that moves the interrupt. -/
theorem witness_InterruptIsLevelOfDone :
    (∃ t, exec .nop { State.reset with ie := true } = .next t) ∧
    (∃ t, completeWord 5 { State.reset with ie := true } = .next t ∧ t.irq = true) ∧ -- P4
    ((∃ t, memWrite 0x008 4 2 { State.reset with ie := true, done := true } = .next t) ∧ (2 : Word).getLsbD 1 = true) ∧
    ((∃ t, memWrite 0x004 4 0 { State.reset with ie := true, done := true } = .next t) ∧ (0 : Word).getLsbD 0 = false) :=
  ⟨⟨_, rfl⟩, ⟨_, rfl, rfl⟩, ⟨⟨_, rfl⟩, rfl⟩, ⟨_, rfl⟩, rfl⟩

theorem witness_ResetGivesTheTable : ({ busyWith 4 with turns := [.rst] } : State).nextTurn = .rst := rfl

/-- A busy state with an accepted command meets the invariant. -/
theorem busyWith_inv (w : Word) : (busyWith w).Inv :=
  State.Inv.mk rfl (fun _ h => by injection h) rfl (show (0 : BitVec 4).toNat ≤ 3 by decide) (fun h => absurd rfl h) (fun _ => rfl)
    (fun h => by cases h) (fun h => absurd h (show ¬(0 : BitVec 4) = 1 by decide)) (fun h => absurd h (show ¬(0 : BitVec 4) = 2 by decide))

theorem busyWith_accesses (w : Word) : (busyWith w).AccessesOk :=
  State.AccessesOk.mk (fun _ h => by cases h) (fun _ h => by cases h)

theorem witness_StepKeepsInvariant : (busyWith 5).Inv ∧ ∃ t, step (busyWith 5) = .next t := ⟨busyWith_inv 5, _, rfl⟩
theorem witness_MachineNeverStops : (busyWith 0x8803).Inv ∧ (busyWith 0x8803).AccessesOk :=
  ⟨busyWith_inv _, busyWith_accesses _⟩

/-- The host moves once before the engine. -/
theorem witness_BusyEngineCompletes :
    let s : State := { busyWith 0x8803 with turns := [.host] }
    s.Inv ∧ s.AccessesOk ∧ s.busy = true ∧ ∀ a ∈ s.turns, a ≠ .rst :=
  ⟨(busyWith_inv 0x8803).of_same_fields rfl rfl rfl rfl rfl rfl rfl id,
    State.AccessesOk.mk (fun _ h => by cases h) (fun a h => by obtain rfl : a = .host := by simpa using h
                                                               trivial), rfl, by decide⟩

theorem witness_OperandsAreFixedWhileBusy :
    let s : State := { busyWith 0x8801 with turns := [.host], hostProg := [.sw 0x100 1] }
    (∃ t, step s = .next t) ∧ s.busy = true ∧ s.nextTurn ≠ .engine ∧ s.nextTurn ≠ .rst :=
  ⟨⟨_, rfl⟩, rfl, by decide, by decide⟩

/-- Each event, set and cleared: BUSY, DONE, ERR, OVR, BWE. -/
theorem witness_FlagsChangeOnlyByTheirEvents :
    let issue := hosted [.sw 0x00C 0] [.host]
    let fails := busyWith 5
    let clears : State := { hosted [.sw 0x008 0x1E] [.host] with done := true, err := true, ovr := true, bwe := true }
    let overrun : State := { busyWith 0 with turns := [.host], hostProg := [.sw 0x00C 0] }
    let discarded : State := { busyWith 0 with turns := [.host], hostProg := [.sw 0x3FC 0] }
    (issue.nextTurn ≠ .rst ∧ issue.busy = false ∧ ∃ t, step issue = .next t ∧ t.busy = true) ∧
    (fails.nextTurn ≠ .rst ∧ fails.busy = true ∧ fails.done = false ∧ fails.err = false ∧
      ∃ t, step fails = .next t ∧ t.busy = false ∧ t.done = true ∧ t.err = true) ∧
    (clears.nextTurn ≠ .rst ∧ clears.done = true ∧ clears.err = true ∧ clears.ovr = true ∧ clears.bwe = true ∧
      ∃ t, step clears = .next t ∧ t.done = false ∧ t.err = false ∧ t.ovr = false ∧ t.bwe = false) ∧
    (overrun.nextTurn ≠ .rst ∧ overrun.ovr = false ∧ ∃ t, step overrun = .next t ∧ t.ovr = true) ∧
    (discarded.nextTurn ≠ .rst ∧ discarded.bwe = false ∧ ∃ t, step discarded = .next t ∧ t.bwe = true) :=
  ⟨⟨by decide, rfl, _, rfl, rfl⟩, ⟨by decide, rfl, rfl, rfl, _, rfl, rfl, rfl, rfl⟩,
    ⟨by decide, rfl, rfl, rfl, rfl, _, rfl, rfl, rfl, rfl, rfl⟩, ⟨by decide, rfl, _, rfl, rfl⟩, ⟨by decide, rfl, _, rfl, rfl⟩⟩

theorem witness_ErrinfoChangesOnlyOnFailure :
    (busyWith 5).nextTurn ≠ .rst ∧ ∃ t, step (busyWith 5) = .next t ∧ t.view .errinfo ≠ (busyWith 5).view .errinfo :=
  ⟨by decide, _, rfl, by decide⟩

theorem witness_MaskChangesOnlyByQuantizer :
    let s := (coefficients 7).accept 0x8802
    s.nextTurn ≠ .rst ∧ ∃ t, step s = .next t ∧ (t.nzmask ≠ s.nzmask ∨ t.qout ≠ s.qout) :=
  ⟨by decide, _, rfl, .inl (by decide +kernel)⟩

/-- Two idle instances. -/
theorem witness_InstancesShareNothing :
    (0 : Nat) ≠ 1 ∧
    (∃ q, (System.reset 2).stepAt 1 = .next q ∧ (∃ a, q.instances[0]? = some a) ∧ ∃ b, q.instances[1]? = some b) ∧
    (∃ s, (System.reset 2).instances[1]? = some s) ∧ (∃ q, (System.reset 2).stepAt 0 = .next q) ∧ (System.reset 2).Numbered := by
  refine ⟨by decide, ⟨_, rfl, ⟨_, rfl⟩, _, rfl⟩, ⟨_, rfl⟩, ⟨_, rfl⟩, fun k s h => ?_⟩
  match k, h with
  | 0, h => injection h with h; subst h; rfl
  | 1, h => injection h with h; subst h; rfl
  | k + 2, h => simp [System.reset] at h

/-- One state for each operation of the notation. -/
theorem witness_HostOperationsRun :
    let s (op : HostOp) := hosted [.label 3, op] [.host]
    let at1 (op : HostOp) : State := { s op with hostPc := 1 }
    (∀ op, (at1 op).turns = .host :: [] ∧ (at1 op).hostProg[(at1 op).hostPc]? = some op) ∧
    (∃ a, memWrite 0x100 4 5 { at1 (.sw 0x100 5) with turns := [] } = .next a) ∧
    (∃ a, memWrite 0xFFC 4 ((at1 (.swt 0xFFC 7)).t[(7 : Fin 8)]) { at1 (.swt 0xFFC 7) with turns := [] } = .next a) ∧
    (∃ p, memRead 0x008 4 { at1 (.lw 7 0x008) with turns := [] } = .next p) ∧
    (at1 (.bnez 7 3)).hostProg.idxOf? (.label 3) = some 0 := by
  refine ⟨fun op => ⟨rfl, rfl⟩, ⟨_, rfl⟩, ⟨_, rfl⟩, ⟨_, rfl⟩, rfl⟩

theorem witness_WaitLoopsUntilIdle :
    let s : State := { hosted ([.halt] ++ pseudoWait 3 ++ [.halt]) [.host, .host, .host, .host] with hostPc := 1 }
    s.hostProg = [.halt] ++ pseudoWait 3 ++ [.halt] ∧ HostOp.label 3 ∉ [HostOp.halt] ∧ s.hostPc = [HostOp.halt].length ∧
    s.turns = .host :: .host :: .host :: .host :: [] := ⟨rfl, by decide, rfl, rfl⟩

end Sys2Proof.Tests
end

section
/-! PROOFS. The rounding primitive (R11). -/

namespace Sys2Proof.Machine

/-- The two-sided bound `roundHAZ_near`, as a distance. -/
theorem two_mul_natAbs_roundHAZ_error_le (a : Int) {b : Int} (hb : 0 < b) :
    2 * (b * roundHAZ a b - a).natAbs ≤ b.natAbs := by
  have ⟨upper, lower⟩ := roundHAZ_near a hb
  omega

/-- Settles O25: the distance bound, the tie lemma of the model's laws, and the formula of R11, which is the definition. -/
theorem roundHazIsNearestTiesOutward : Obligations.RoundHazIsNearestTiesOutward :=
  fun a _ hb => ⟨two_mul_natAbs_roundHAZ_error_le a hb, roundHAZ_tie a hb, rfl⟩

end Sys2Proof.Machine
end

section
/-! PROOFS. What one step can do to the registers of the device, and the statements about whole steps (R28 to R44, R76, R191, R196). -/

namespace Sys2Proof.Machine

/-! ## The registers of the device and the agents around it -/

/-- `t` differs from `s` only in the host agent's scratch registers and place, the turns to come, and the model's own `draws` and `rdata`:
no register of the device has changed. -/
def SameRegisters (s t : State) : Prop :=
  ∃ (regs : Vector Word 8) (pc : Nat) (turns : List Turn) (draws : Nat) (rdata : Word),
    t = { s with t := regs, hostPc := pc, turns := turns, draws := draws, rdata := rdata }

theorem SameRegisters.refl (s : State) : SameRegisters s s := ⟨_, _, _, _, _, rfl⟩

theorem SameRegisters.trans {s t u : State} (h : SameRegisters s t) (h' : SameRegisters t u) : SameRegisters s u := by
  obtain ⟨_, _, _, _, _, rfl⟩ := h
  obtain ⟨_, _, _, _, _, rfl⟩ := h'
  exact ⟨_, _, _, _, _, rfl⟩

theorem sameRegisters_popTurn (s : State) : SameRegisters s s.popTurn := ⟨_, _, _, _, _, rfl⟩

theorem sameRegisters_advanceHost (s : State) : SameRegisters s s.advanceHost := ⟨_, _, _, _, _, rfl⟩

theorem sameRegisters_setT (r : Fin 8) (w : Word) (s : State) : SameRegisters s (s.setT r w) := ⟨_, _, _, _, _, rfl⟩

theorem sameRegisters_readLoc (l : Loc) (s : State) : SameRegisters s (readLoc l s).2 := by
  rcases readLoc_cases l s with ⟨h, -⟩ | ⟨h, -⟩ <;> rw [h] <;> exact ⟨_, _, _, _, _, rfl⟩

theorem SameRegisters.view_eq {s t : State} (h : SameRegisters s t) (l : Loc) : t.view l = s.view l := by
  obtain ⟨_, _, _, _, _, rfl⟩ := h; cases l <;> rfl

/-- The invariant speaks of registers of the device only. -/
theorem State.Inv.of_sameRegisters {s t : State} (hs : s.Inv) (h : SameRegisters s t) : t.Inv := by
  obtain ⟨_, _, _, _, _, rfl⟩ := h
  exact hs.of_same_fields rfl rfl rfl rfl rfl rfl rfl id

/-- A host operation moves the host alone, or writes one register of the window (R108). -/
theorem hostOp_writes_or_keeps {op : HostOp} {s t : State} (h : hostOp op s = .next t) :
    SameRegisters s t ∨
    ∃ off w, offsetOk off = true ∧ (op = .sw off w ∨ ∃ r, op = .swt off r ∧ w = s.t[r]) ∧
      SameRegisters (writeLoc (locOf off) w s) t := by
  rcases hostOp_cases h with ⟨off, w, ho, hop, rfl⟩ | ⟨r, off, -, -, rfl⟩ | ⟨r, m, imm, -, rfl⟩ | ⟨r, l, place, -, -, rfl⟩ |
    ⟨l, -, rfl⟩ | ⟨-, rfl⟩
  · exact .inr ⟨off, w, ho, hop, sameRegisters_advanceHost _⟩
  · exact .inl (((sameRegisters_readLoc _ _).trans (sameRegisters_setT _ _ _)).trans (sameRegisters_advanceHost _))
  · exact .inl ((sameRegisters_setT _ _ _).trans (sameRegisters_advanceHost _))
  · left
    split
    · exact ⟨_, _, _, _, _, rfl⟩
    · exact sameRegisters_advanceHost _
  · exact .inl (sameRegisters_advanceHost _)
  · exact .inl (.refl _)

/-- Outside a reset, a step changes no register, or is the host's write that `nextWrite` names, or is a completion (R43, R70, R172). -/
theorem step_registers_cases {s t : State} (h : step s = .next t) (hr : s.nextTurn ≠ .rst) :
    SameRegisters s t ∨
    (s.nextTurn ≠ .engine ∧ ∃ off w, s.nextWrite = some (off, w) ∧ offsetOk off = true ∧
      SameRegisters (writeLoc (locOf off) w s.popTurn) t) ∨
    (s.nextTurn = .engine ∧ s.busy = true ∧ ∃ w, s.pending = some w ∧ completeWord w s.popTurn = .next t) := by
  rcases step_cases h with ⟨hn, he⟩ | ⟨hn, op, hop, he⟩ | ⟨-, -, rfl⟩ | ⟨a, hn, he⟩ | ⟨hn, -⟩
  · rcases engineTurn_cases he with ⟨-, rfl⟩ | ⟨hb, w, hw, hc⟩
    · exact .inl (sameRegisters_popTurn s)
    · exact .inr (.inr ⟨hn, hb, w, hw, hc⟩)
  · rcases hostOp_writes_or_keeps he with hk | ⟨off, w, ho, hw, hk⟩
    · exact .inl ((sameRegisters_popTurn s).trans hk)
    · refine .inr (.inl ⟨by simp [hn], off, w, ?_, ho, hk⟩)
      rcases hw with rfl | ⟨r, rfl, rfl⟩ <;> simp [State.nextWrite, hn, hop]
  · exact .inl (sameRegisters_popTurn s)
  · rcases busAccess_cases he with ⟨off, -, -, -, rfl⟩ | ⟨off, w, rfl, ho, rfl⟩
    · exact .inl (((sameRegisters_popTurn s).trans (sameRegisters_readLoc (locOf off) _)).trans ⟨_, _, _, _, _, rfl⟩)
    · refine .inr (.inl ⟨by simp [hn], off, w, ?_, ho, .refl _⟩)
      have hbase : s.popTurn.base = s.base := rfl
      simp [State.nextWrite, hn, hbase]
  · exact absurd hn hr

/-! ## What a completion can do -/

/-- A command fails with an error that R191 lets it raise, or completes with new contents of its outputs alone (R42, R196). -/
theorem exec_fails_or_completes {i : Instr} {s t : State} (h : exec i s = .next t) :
    (∃ e op, t = s.fail e op ∧ (e = .shape → op = 1 ∨ op = 2 ∨ op = 3) ∧ (∀ k, e = .divisor k → op = 2 ∨ op = 3)) ∨
    (∃ d c q m, t = State.complete { s with div := d, coef := c, qout := q, nzmask := m }) := by
  rcases exec_cases h with ⟨-, rfl⟩ | ⟨r, c, -, ⟨-, rfl⟩ | ⟨-, rfl⟩⟩ | ⟨r, c, -, ⟨e, -, rfl⟩ | ⟨-, rfl⟩⟩ |
    ⟨r, c, -, ⟨e, -, rfl⟩ | ⟨-, rfl⟩⟩ | ⟨tbl, -, ⟨-, rfl⟩ | ⟨-, rfl⟩⟩
  · exact .inr ⟨_, _, _, _, rfl⟩
  · exact .inl ⟨_, _, rfl, by simp, by simp⟩
  · exact .inr ⟨_, _, _, _, rfl⟩
  · exact .inl ⟨_, _, rfl, by simp, by simp⟩
  · exact .inr ⟨_, _, _, _, rfl⟩
  · exact .inl ⟨_, _, rfl, by simp, by simp⟩
  · exact .inr ⟨_, _, _, _, rfl⟩
  · exact .inl ⟨_, _, rfl, by simp, by simp⟩
  · exact .inr ⟨_, _, _, _, rfl⟩

/-- The same of the completion of any word: an illegal one fails with IllegalCommand (R105, R194). -/
theorem completeWord_fails_or_completes {w : Word} {s t : State} (h : completeWord w s = .next t) :
    (∃ e op, t = s.fail e op ∧ (e = .shape → op = 1 ∨ op = 2 ∨ op = 3) ∧ (∀ k, e = .divisor k → op = 2 ∨ op = 3)) ∨
    (∃ d c q m, t = State.complete { s with div := d, coef := c, qout := q, nzmask := m }) := by
  rcases completeWord_cases h with ⟨i, -, he⟩ | ⟨-, rfl⟩
  · exact exec_fails_or_completes he
  · exact .inl ⟨_, _, rfl, by simp, by simp⟩

/-! ## The invariant -/

/-- The completion of any word keeps the invariant. -/
theorem State.Inv.of_completeWord {s t : State} (hs : s.Inv) {w : Word} (h : completeWord w s = .next t) : t.Inv := by
  rcases completeWord_fails_or_completes h with ⟨e, op, rfl, hshape, hdiv⟩ | ⟨d, c, q, m, rfl⟩
  · exact hs.of_fail e op hshape hdiv
  · exact hs.of_completed _ rfl rfl rfl rfl rfl rfl rfl

/-- A reset establishes the invariant, from any state (R231). -/
theorem State.rst_inv (s : State) : s.rst.Inv where
  busy_pending := rfl
  cmdlast_pending := fun _ h => by cases h
  bits_legal := rfl
  code_defined := by simp [State.reset]
  pos_of_divisor := fun h => absurd rfl h
  op_of_failure := fun _ => rfl
  err_recorded := fun h => by cases h
  shape_raisedBy := by simp [State.reset]
  divisor_raisedBy := by simp [State.reset]

/-- Settles O51: a reset establishes the invariant, and a write, a completion and a step that changes no register each keep it. -/
theorem stepKeepsInvariant : Obligations.StepKeepsInvariant := by
  intro s t hs h
  by_cases hr : s.nextTurn = .rst
  · have ht : step s = .next s.popTurn.rst := by rw [step_eq, hr]; rfl
    obtain rfl : s.popTurn.rst = t := by simpa [ht] using h
    exact State.rst_inv _
  · have hp : s.popTurn.Inv := hs.of_sameRegisters (sameRegisters_popTurn s)
    rcases step_registers_cases h hr with hk | ⟨-, off, w, -, -, hk⟩ | ⟨-, -, w, -, hc⟩
    · exact hs.of_sameRegisters hk
    · exact (hp.of_writeLoc _ w).of_sameRegisters hk
    · exact hp.of_completeWord hc

/-! ## What a write and a completion change -/

/-- No write of the host changes ERRINFO, NZMASK or QOUT (R34, R37, R41, R71). -/
theorem writeLoc_keeps_results (l : Loc) (w : Word) (s : State) :
    (writeLoc l w s).view .errinfo = s.view .errinfo ∧ (writeLoc l w s).nzmask = s.nzmask ∧
      (writeLoc l w s).qout = s.qout := by
  rcases writeLoc_cases l w s with e | ⟨-, e⟩ | ⟨-, e⟩ | ⟨-, -, e⟩ | ⟨-, -, e⟩ | ⟨-, -, e⟩ | ⟨-, -, e⟩ | ⟨k, -, -, e⟩ |
    ⟨k, -, -, e⟩ | ⟨k, -, -, e⟩ <;> simp [e, State.view, State.errinfoWord]

/-- A completion clears BUSY and sets DONE, leaves CTRL, OVR and BWE alone, and sets ERR only with a code recorded (R172, R196). -/
theorem completeWord_flags {w : Word} {s t : State} (h : completeWord w s = .next t) :
    t.busy = false ∧ t.done = true ∧ t.ie = s.ie ∧ t.ovr = s.ovr ∧ t.bwe = s.bwe ∧
      (t.err = s.err ∨ (t.err = true ∧ t.errCode ≠ 0)) := by
  rcases completeWord_fails_or_completes h with ⟨e, op, rfl, -, -⟩ | ⟨d, c, q, m, rfl⟩
  · have hcode : e.code ≠ 0 := by cases e <;> simp [CommandError.code]
    exact ⟨rfl, rfl, rfl, rfl, rfl, .inr ⟨rfl, hcode⟩⟩
  · exact ⟨rfl, rfl, rfl, rfl, rfl, .inl rfl⟩

/-- The same of a command (R172). -/
theorem exec_flags {i : Instr} {s t : State} (h : exec i s = .next t) : t.done = true ∧ t.ie = s.ie := by
  rcases exec_fails_or_completes h with ⟨e, op, rfl, -, -⟩ | ⟨d, c, q, m, rfl⟩ <;> exact ⟨rfl, rfl⟩

/-- Settles O47: a completion sets DONE and keeps IE; each of the three events clears one of the two. -/
theorem interruptIsLevelOfDone : Obligations.InterruptIsLevelOfDone := by
  refine ⟨fun _ => rfl, ?_, ?_, ?_, fun _ => rfl⟩
  · intro s t h
    obtain ⟨hdone, hie⟩ : t.done = true ∧ t.ie = s.ie := by
      rcases h with ⟨w, hw⟩ | ⟨i, hi⟩
      · obtain ⟨-, hdone, hie, -⟩ := completeWord_flags hw
        exact ⟨hdone, hie⟩
      · exact exec_flags hi
    simp [State.irq, hdone, hie]
  · intro s t w h hbit
    obtain ⟨-, -, -, rfl⟩ := memWrite_eq_next.1 h
    have hw : writeLoc (locOf 0x008) w s = s.clearStatus w := rfl
    simp only [State.irq, hw, State.clearStatus_done, hbit, Bool.not_true, Bool.and_false]
  · intro s t w h hbit
    obtain ⟨-, -, -, rfl⟩ := memWrite_eq_next.1 h
    have hw : writeLoc (locOf 0x004) w s = s.writeCtrl w := rfl
    simp only [State.irq, hw, State.writeCtrl_ie, hbit, Bool.false_and]

/-- Settles O54: what such a step does is a write, or nothing; a write while busy changes none of these (`writeLoc_busy`). -/
theorem operandsAreFixedWhileBusy : Obligations.OperandsAreFixedWhileBusy := by
  intro s t h hb hne hnr
  rcases step_registers_cases h hnr with hk | ⟨-, off, w, -, -, hk⟩ | ⟨he, -⟩
  · obtain ⟨_, _, _, _, _, rfl⟩ := hk
    simp [hb]
  · obtain ⟨_, _, _, _, _, rfl⟩ := hk
    exact writeLoc_busy (locOf off) w s.popTurn hb
  · exact absurd he hne

/-- Settles O56: neither a quiet step nor a write changes ERRINFO, nor does a completion that succeeds. -/
theorem errinfoChangesOnlyOnFailure : Obligations.ErrinfoChangesOnlyOnFailure := by
  intro s t h hr hchange
  rcases step_registers_cases h hr with hk | ⟨-, off, w, -, -, hk⟩ | ⟨hn, hb, w, hw, hc⟩
  · exact absurd (hk.view_eq _) hchange
  · obtain ⟨hkeep, -⟩ := writeLoc_keeps_results (locOf off) w s.popTurn
    exact absurd ((hk.view_eq _).trans hkeep) hchange
  · rcases completeWord_fails_or_completes hc with ⟨e, op, rfl, -, -⟩ | ⟨d, c, q, m, rfl⟩
    · exact ⟨hn, hb, rfl, rfl, rfl, w, e, op, hw, hc, rfl⟩
    · exact absurd rfl hchange

/-! ## The STATUS flags and the offsets that move them -/

/-- The byte offset of a register (R24); of the reserved ones, the first. -/
def Loc.offset : Loc → Nat
  | .id => 0x000
  | .ctrl => 0x004
  | .status => 0x008
  | .cmd => 0x00C
  | .errinfo => 0x010
  | .cfg => 0x014
  | .nzmaskLo => 0x018
  | .nzmaskHi => 0x01C
  | .sample k => 0x100 + 4 * k.val
  | .div k => 0x200 + 4 * k.val
  | .coef k => 0x300 + 4 * k.val
  | .qout k => 0x400 + 4 * k.val
  | .reserved => 0x020

/-- A byte offset that reaches a register lies in the four bytes at the register's offset (R24). -/
theorem offset_locOf {off : Nat} (h : locOf off ≠ .reserved) : (locOf off).offset = 4 * (off / 4) := by
  revert h
  unfold locOf
  split_ifs with h1 h2 h3 h4 h5
  · split <;> simp_all [Loc.offset]
  · simp only [Loc.offset, entry]; omega
  · simp only [Loc.offset, entry]; omega
  · simp only [Loc.offset, entry]; omega
  · simp only [Loc.offset, entry]; omega
  · exact fun h => absurd rfl h

/-- The same as bounds, of a register named. -/
theorem offset_bounds_of_locOf {off : Nat} {l : Loc} (h : locOf off = l) (hl : l ≠ .reserved) :
    l.offset ≤ off ∧ off < l.offset + 4 := by
  have hoff := offset_locOf (h ▸ hl)
  rw [h] at hoff
  omega

/-- An aligned access that reaches a register is at the register's offset. -/
theorem eq_offset_of_locOf {off : Nat} {l : Loc} (ho : offsetOk off = true) (h : locOf off = l) (hl : l ≠ .reserved) :
    off = l.offset := by
  have hoff := offset_locOf (h ▸ hl)
  rw [h] at hoff
  simp only [offsetOk, Bool.and_eq_true, beq_iff_eq] at ho
  omega

/-- What a write can do to the flags of STATUS: nothing, a W1C, an acceptance, an overrun, or a discarded write (R27 to R32). -/
theorem writeLoc_flags_cases (l : Loc) (w : Word) (s : State) :
    ((writeLoc l w s).busy = s.busy ∧ (writeLoc l w s).done = s.done ∧ (writeLoc l w s).err = s.err ∧
      (writeLoc l w s).ovr = s.ovr ∧ (writeLoc l w s).bwe = s.bwe) ∨
    (l = .status ∧ writeLoc l w s = s.clearStatus w) ∨
    (l = .cmd ∧ s.busy = false ∧ writeLoc l w s = s.accept w) ∨
    (l = .cmd ∧ s.busy = true ∧ writeLoc l w s = s.setOvr) ∨
    ((l = .cfg ∨ ∃ k, l = .sample k ∨ l = .div k ∨ l = .coef k) ∧ s.busy = true ∧ writeLoc l w s = s.setBwe) := by
  rcases writeLoc_cases l w s with e | ⟨-, e⟩ | h | h | h | h | ⟨-, -, e⟩ | ⟨k, -, -, e⟩ | ⟨k, -, -, e⟩ | ⟨k, -, -, e⟩
  · exact .inl (by simp [e])
  · exact .inl (by simp [e])
  · exact .inr (.inl h)
  · exact .inr (.inr (.inl h))
  · exact .inr (.inr (.inr (.inl h)))
  · exact .inr (.inr (.inr (.inr h)))
  · exact .inl (by simp [e])
  · exact .inl (by simp [e])
  · exact .inl (by simp [e])
  · exact .inl (by simp [e])

/-- The offsets whose write while busy sets BWE (R32). -/
theorem bweOffset_of_locOf {off : Nat} (ho : offsetOk off = true)
    (h : locOf off = .cfg ∨ ∃ k, locOf off = .sample k ∨ locOf off = .div k ∨ locOf off = .coef k) :
    off = 0x014 ∨ (0x100 ≤ off ∧ off < 0x400) := by
  rcases h with h | ⟨k, h | h | h⟩
  all_goals
    have hoff := eq_offset_of_locOf ho h (by simp)
    simp only [Loc.offset] at hoff
    omega

/-- Settles O55: a quiet step moves no flag; a write moves one only as `writeLoc_flags_cases` says, at the offset of the register it
reaches; a completion as `completeWord_flags` says. -/
theorem flagsChangeOnlyByTheirEvents : Obligations.FlagsChangeOnlyByTheirEvents := by
  intro s t h hr
  rcases step_registers_cases h hr with hk | ⟨hn, off, w, hw, ho, hk⟩ | ⟨hn, hb, w, hw, hc⟩
  · obtain ⟨_, _, _, _, _, rfl⟩ := hk
    simp +contextual
  · obtain ⟨_, _, _, _, _, rfl⟩ := hk
    rcases writeLoc_flags_cases (locOf off) w s.popTurn with ⟨hbusy, hdone, herr, hovr, hbwe⟩ | ⟨hl, e⟩ | ⟨hl, hb, e⟩ |
      ⟨hl, hb, e⟩ | ⟨hl, hb, e⟩
    · simp +contextual [hbusy, hdone, herr, hovr, hbwe]
    · obtain rfl : off = 0x008 := eq_offset_of_locOf ho hl (by simp)
      simp +contextual [e, hw]
    · obtain rfl : off = 0x00C := eq_offset_of_locOf ho hl (by simp)
      simp +contextual [e, hw]
    · obtain rfl : off = 0x00C := eq_offset_of_locOf ho hl (by simp)
      have hb : s.busy = true := hb
      simp +contextual [e, hw, hb]
    · have hoff := bweOffset_of_locOf ho hl
      have hb : s.busy = true := hb
      simp +contextual [e, hw, hb, hoff]
  · obtain ⟨hbusy, hdone, -, hovr, hbwe, herr⟩ := completeWord_flags hc
    rcases herr with herr | ⟨herr, hcode⟩
    · simp +contextual [hn, hb, hbusy, hdone, herr, hovr, hbwe]
    · have hcode : t.errCode ≠ 0#4 := hcode
      simp +contextual [hn, hb, hbusy, hdone, herr, hovr, hbwe, hcode]

/-! ## The mask and the quantized matrix -/

/-- A passed shape check means 8 × 8 (R104). -/
theorem shape_of_shapeError_none {r c : BitVec 4} (h : shapeError r c = none) : r = 8 ∧ c = 8 := by
  rw [← shapeOk_iff]
  unfold shapeError at h
  split at h
  · assumption
  · cases h

/-- The word of QUANT 8, 8 (R102). -/
theorem decode_eq_quant_eight {w : Word} (h : decode w = .ok (.quant 8 8)) : w = 0x00008802 := by
  rw [decode_eq] at h
  split_ifs at h with h0 h1 h2 h3 h4 <;> simp only [Except.ok.injEq, Instr.quant.injEq, reduceCtorEq] at h
  obtain ⟨hrows, hcols⟩ := h
  obtain ⟨hop, htbl, hrsv⟩ := (masked_eq_iff w 2).1 h2
  rw [word_eq_fields w, hrsv, htbl, hcols, hrows, hop]
  rfl

/-- The word of FDCTQ 8, 8 (R102). -/
theorem decode_eq_fdctq_eight {w : Word} (h : decode w = .ok (.fdctq 8 8)) : w = 0x00008803 := by
  rw [decode_eq] at h
  split_ifs at h with h0 h1 h2 h3 h4 <;> simp only [Except.ok.injEq, Instr.fdctq.injEq, reduceCtorEq] at h
  obtain ⟨hrows, hcols⟩ := h
  obtain ⟨hop, htbl, hrsv⟩ := (masked_eq_iff w 3).1 h3
  rw [word_eq_fields w, hrsv, htbl, hcols, hrows, hop]
  rfl

/-- A command leaves NZMASK and QOUT alone, or is QUANT or FDCTQ of shape 8 × 8 and leaves the mask of its QOUT (R153). -/
theorem exec_keeps_or_masks_qout {i : Instr} {s t : State} (h : exec i s = .next t) :
    (t.nzmask = s.nzmask ∧ t.qout = s.qout) ∨
    ((i = .quant 8 8 ∨ i = .fdctq 8 8) ∧ t.nzmask = nzmaskOf t.qout) := by
  rcases exec_cases h with ⟨-, rfl⟩ | ⟨r, c, -, ⟨-, rfl⟩ | ⟨-, rfl⟩⟩ | ⟨r, c, hi, ⟨e, -, rfl⟩ | ⟨hok, rfl⟩⟩ |
    ⟨r, c, hi, ⟨e, -, rfl⟩ | ⟨hok, rfl⟩⟩ | ⟨tbl, -, ⟨-, rfl⟩ | ⟨-, rfl⟩⟩
  · exact .inl ⟨rfl, rfl⟩
  · exact .inl ⟨rfl, rfl⟩
  · exact .inl ⟨rfl, rfl⟩
  · exact .inl ⟨rfl, rfl⟩
  · obtain ⟨rfl, rfl⟩ := shape_of_shapeError_none (Option.or_eq_none_iff.1 hok).1
    exact .inr ⟨.inl hi, rfl⟩
  · exact .inl ⟨rfl, rfl⟩
  · obtain ⟨rfl, rfl⟩ := shape_of_shapeError_none (Option.or_eq_none_iff.1 hok).1
    exact .inr ⟨.inr hi, rfl⟩
  · exact .inl ⟨rfl, rfl⟩
  · exact .inl ⟨rfl, rfl⟩

/-- Settles O57: no quiet step and no write changes either register; of the completions only those of QUANT and FDCTQ of shape 8 × 8 do,
and only one word decodes to each. -/
theorem maskChangesOnlyByQuantizer : Obligations.MaskChangesOnlyByQuantizer := by
  intro s t h hr hchange
  have hnot : ¬(t.nzmask = s.nzmask ∧ t.qout = s.qout) := by tauto
  rcases step_registers_cases h hr with hk | ⟨-, off, w, -, -, hk⟩ | ⟨hn, hb, w, hw, hc⟩
  · obtain ⟨_, _, _, _, _, rfl⟩ := hk
    exact absurd ⟨rfl, rfl⟩ hnot
  · obtain ⟨_, _, _, _, _, rfl⟩ := hk
    exact absurd (writeLoc_keeps_results (locOf off) w s.popTurn).2 hnot
  · rcases completeWord_cases hc with ⟨i, hi, he⟩ | ⟨-, rfl⟩
    · rcases exec_keeps_or_masks_qout he with hkeep | ⟨hquant, hmask⟩
      · exact absurd hkeep hnot
      · refine ⟨hn, hb, ?_, fun k => hmask ▸ nzmaskOf_getLsb t.qout k⟩
        rcases hquant with rfl | rfl
        · exact .inl (decode_eq_quant_eight hi ▸ hw)
        · exact .inr (decode_eq_fdctq_eight hi ▸ hw)
    · exact absurd ⟨rfl, rfl⟩ hnot

end Sys2Proof.Machine
end

section
/-! PROOFS. The window after a write of a buffer entry and after a command (R38 to R42). -/

namespace Sys2Proof.Machine

/-! ## Read after write -/

/-- The registers of the buffers that a host may write (R38 to R40). -/
def Loc.isOperandBuffer : Loc → Bool
  | .sample _ => true
  | .div _ => true
  | .coef _ => true
  | _ => false

/-- The low half of a word, sign-extended, as a buffer of halves reads it back (R38, R39). -/
theorem signExtend_setWidth_half (w : Word) : (w.setWidth 16).signExtend 32 = BitVec.ofInt 32 (w.extractLsb' 0 16).toInt := by
  have hlow : w.extractLsb' 0 16 = w.setWidth 16 := by simp [BitVec.extractLsb']
  rw [hlow]; rfl

/-- Setting one entry of a buffer leaves the others. -/
theorem getElem_set_of_ne {α : Type} (m : Matrix α) (v : α) {j k : Fin 64} (h : j ≠ k) : (m.set k v)[j] = m[j] :=
  Vector.getElem_set_ne k.isLt j.isLt fun hkj => h (Fin.ext hkj.symm)

/-- A write of a buffer entry on an idle device leaves every other register as it was. -/
theorem view_writeLoc_of_ne {l l' : Loc} (w : Word) {s : State} (hb : s.busy = false) (hl : l.isOperandBuffer = true) (hne : l' ≠ l) :
    (writeLoc l w s).view l' = s.view l' := by
  cases l with
  | sample k | div k | coef k =>
    simp only [writeLoc, unlessBusy_idle _ _ hb]
    cases l' with
    | sample j | div j | coef j =>
      simp_all only [ne_eq, Loc.sample.injEq, Loc.div.injEq, Loc.coef.injEq, State.view, getElem_set_of_ne, not_false_eq_true]
    | _ => rfl
  | _ => cases hl

/-- A write of a buffer entry leaves an idle device idle. -/
theorem writeLoc_idle_of_operandBuffer {l : Loc} (w : Word) {s : State} (hb : s.busy = false) (hl : l.isOperandBuffer = true) :
    (writeLoc l w s).busy = false := by
  cases l <;> simp_all [Loc.isOperandBuffer, writeLoc, unlessBusy_idle]

/-- On an idle device a buffer entry written at its offset reads back as that register then reads, and nothing else changes. -/
theorem buffer_entry_reads_back {s : State} {w v : Word} {off : Nat} {l : Loc} (hb : s.busy = false) (hl : l.isOperandBuffer = true)
    (hoff : locOf off = l) (hv : (writeLoc l w s).view l = v) (h4 : off % 4 = 0) (hlo : 0x100 ≤ off) (hhi : off < 0x500) :
    ∃ t : State, memWrite off 4 w s = .next t ∧ memRead off 4 t = .next (v, t) ∧
      ∀ off' : Nat, off' % 4 = 0 → off' < 0x1000 → off' ≠ off → t.view (locOf off') = s.view (locOf off') := by
  subst hoff
  refine ⟨_, memWrite_aligned off w s h4 (by omega), ?_, fun off' h4' hin hne => ?_⟩
  · rw [memRead_aligned off _ h4 (by omega), readLoc_of_fixed _ _ (.inl (writeLoc_idle_of_operandBuffer w hb hl)), hv]
  · exact view_writeLoc_of_ne w hb hl fun h => hne (locOf_injective_on_buffers h4' h4 hin (by omega) hlo hhi h)

/-- Settles O43: `buffer_entry_reads_back`, at the three buffers a host may write. -/
theorem bufferReadAfterWrite : Obligations.BufferReadAfterWrite := by
  intro s w k hb
  refine ⟨?_, ?_, ?_⟩
  · refine buffer_entry_reads_back hb rfl (locOf_sampleOffset k) ?_ (by omega) (by omega) (by omega)
    simp [writeLoc, unlessBusy_idle, hb, State.view, signExtend_setWidth_half]
  · refine buffer_entry_reads_back hb rfl (locOf_divOffset k) ?_ (by omega) (by omega) (by omega)
    simp [writeLoc, unlessBusy_idle, hb, State.view, signExtend_setWidth_half]
  · refine buffer_entry_reads_back hb rfl (locOf_coefOffset k) ?_ (by omega) (by omega) (by omega)
    simp [writeLoc, unlessBusy_idle, hb, State.view]

/-! ## What a command changes in the window -/

/-- The registers a command writes on success, beside STATUS (R42). -/
def Loc.isOutputOf : Instr → Loc → Bool
  | .fdct _ _, .coef _ => true
  | .quant _ _, .qout _ => true
  | .quant _ _, .nzmaskLo => true
  | .quant _ _, .nzmaskHi => true
  | .fdctq _ _, .coef _ => true
  | .fdctq _ _, .qout _ => true
  | .fdctq _ _, .nzmaskLo => true
  | .fdctq _ _, .nzmaskHi => true
  | .lddiv _, .div _ => true
  | _, _ => false

/-- A failure changes what STATUS and ERRINFO read, and no other register (R196). -/
theorem view_fail_of_ne {e : CommandError} {op : BitVec 8} {s : State} {l : Loc} (h1 : l ≠ .status) (h2 : l ≠ .errinfo) :
    (s.fail e op).view l = s.view l := by
  cases l with
  | status => exact absurd rfl h1
  | errinfo => exact absurd rfl h2
  | _ => rfl

/-- A completion without new outputs changes what STATUS reads, and no other register (R172). -/
theorem view_complete_of_ne {s : State} {l : Loc} (h : l ≠ .status) : s.complete.view l = s.view l := by
  cases l with
  | status => exact absurd rfl h
  | _ => rfl

/-- A command that answers has failed, or every register but STATUS and its outputs reads as before (R42, R196). -/
theorem exec_fails_or_views {i : Instr} {s t : State} (h : exec i s = .next t) :
    (∃ e op, t = s.fail e op) ∨
    (t.err = s.err ∧ ∀ l : Loc, l ≠ .status → l.isOutputOf i = false → t.view l = s.view l) := by
  rcases exec_cases h with ⟨rfl, rfl⟩ | ⟨r, c, rfl, ⟨-, rfl⟩ | ⟨-, rfl⟩⟩ | ⟨r, c, rfl, ⟨e, -, rfl⟩ | ⟨-, rfl⟩⟩ |
    ⟨r, c, rfl, ⟨e, -, rfl⟩ | ⟨-, rfl⟩⟩ | ⟨tbl, rfl, ⟨-, rfl⟩ | ⟨-, rfl⟩⟩
  · exact .inr ⟨rfl, fun l hs _ => view_complete_of_ne hs⟩
  · exact .inl ⟨_, _, rfl⟩
  · refine .inr ⟨rfl, fun l hs ho => (view_complete_of_ne hs).trans ?_⟩
    cases l with
    | coef => cases ho
    | _ => simp only [State.view, State.ctrlWord, State.statusWord, State.errinfoWord, State.cfgWord]
  · exact .inl ⟨_, _, rfl⟩
  · refine .inr ⟨rfl, fun l hs ho => (view_complete_of_ne hs).trans ?_⟩
    cases l with
    | qout | nzmaskLo | nzmaskHi => cases ho
    | _ => simp only [State.view, State.ctrlWord, State.statusWord, State.errinfoWord, State.cfgWord, State.quantized]
  · exact .inl ⟨_, _, rfl⟩
  · refine .inr ⟨rfl, fun l hs ho => (view_complete_of_ne hs).trans ?_⟩
    cases l with
    | coef | qout | nzmaskLo | nzmaskHi => cases ho
    | _ => simp only [State.view, State.ctrlWord, State.statusWord, State.errinfoWord, State.cfgWord, State.quantized]
  · exact .inl ⟨_, _, rfl⟩
  · refine .inr ⟨rfl, fun l hs ho => (view_complete_of_ne hs).trans ?_⟩
    cases l with
    | div => cases ho
    | _ => simp only [State.view, State.ctrlWord, State.statusWord, State.errinfoWord, State.cfgWord]

/-- Every byte of STATUS is at an offset that `statusOffset` names (R24). -/
theorem statusOffset_of_locOf {off : Nat} (h : locOf off = .status) : statusOffset off = true := by
  simpa [statusOffset, Loc.offset] using offset_bounds_of_locOf h (by simp)

/-- Every byte of ERRINFO is at an offset that `errinfoOffset` names (R24). -/
theorem errinfoOffset_of_locOf {off : Nat} (h : locOf off = .errinfo) : errinfoOffset off = true := by
  simpa [errinfoOffset, Loc.offset] using offset_bounds_of_locOf h (by simp)

/-- Every byte of a command's outputs is at an offset that `outputOffset` names (R24, R42). -/
theorem outputOffset_of_locOf {i : Instr} {off : Nat} (h : (locOf off).isOutputOf i = true) : outputOffset i off = true := by
  have hoff := offset_locOf (off := off) (by intro hr; rw [hr] at h; cases i <;> cases h)
  generalize locOf off = l at h hoff
  unfold Loc.isOutputOf at h
  split at h
  case h_10 => cases h
  all_goals
    simp only [Loc.offset] at hoff
    simp only [outputOffset, Bool.or_eq_true, Bool.and_eq_true, decide_eq_true_eq]
    omega

/-- Settles O22: by `exec_fails_or_views`, and since the offsets named hold every byte of the registers that change. -/
theorem commandsWriteOnlyTheirOutputs : Obligations.CommandsWriteOnlyTheirOutputs := by
  intro i s t h
  rcases exec_fails_or_views h with ⟨e, op, rfl⟩ | ⟨herr, hview⟩
  · refine .inl ⟨rfl, fun off hs he => ?_⟩
    have hns : locOf off ≠ .status := fun hl => by simp [statusOffset_of_locOf hl] at hs
    have hne : locOf off ≠ .errinfo := fun hl => by simp [errinfoOffset_of_locOf hl] at he
    rw [State.viewByte, view_fail_of_ne hns hne, State.viewByte]
  · refine .inr ⟨herr, fun off hs ho => ?_⟩
    have hns : locOf off ≠ .status := fun hl => by simp [statusOffset_of_locOf hl] at hs
    have hno : (locOf off).isOutputOf i = false := by
      by_contra hl
      simp [outputOffset_of_locOf (Bool.not_eq_false _ ▸ hl)] at ho
    rw [State.viewByte, hview _ hns hno, State.viewByte]

end Sys2Proof.Machine
end

section
/-! PROOFS. The coefficient ROM against the real basis product (R14, R45 to R48). -/

namespace Sys2Proof.Machine

/-! ## The address map -/

/-- R46: every angle index is in 1..7 and every sign is 1 or −1. -/
theorem angle_range : ∀ k n : Fin 8,
    1 ≤ (angle k n).1 ∧ (angle k n).1 ≤ 7 ∧ ((angle k n).2 = 1 ∨ (angle k n).2 = -1) := by decide

/-- A whole turn is 32 steps of π/16. -/
theorem cos_grid_mod (m : ℕ) : Real.cos ((m : ℝ) * Real.pi / 16) = Real.cos (((m % 32 : ℕ) : ℝ) * Real.pi / 16) := by
  have hm : (m : ℝ) = ((m % 32 : ℕ) : ℝ) + 32 * ((m / 32 : ℕ) : ℝ) := by exact_mod_cast (Nat.mod_add_div m 32).symm
  rw [← Real.cos_add_nat_mul_two_pi (((m % 32 : ℕ) : ℝ) * Real.pi / 16) (m / 32)]
  congr 1
  rw [hm]
  ring

/-- `cos(π − θ) = −cos θ` on the grid. -/
theorem cos_grid_half_sub (a : ℝ) : Real.cos ((16 - a) * Real.pi / 16) = -Real.cos (a * Real.pi / 16) := by
  rw [show (16 - a) * Real.pi / 16 = Real.pi - a * Real.pi / 16 by ring, Real.cos_pi_sub]

/-- `cos(θ − π) = −cos θ` on the grid. -/
theorem cos_grid_sub_half (a : ℝ) : Real.cos ((a - 16) * Real.pi / 16) = -Real.cos (a * Real.pi / 16) := by
  rw [show (a - 16) * Real.pi / 16 = a * Real.pi / 16 - Real.pi by ring, Real.cos_sub_pi]

/-- `cos(2π − θ) = cos θ` on the grid. -/
theorem cos_grid_turn_sub (a : ℝ) : Real.cos ((32 - a) * Real.pi / 16) = Real.cos (a * Real.pi / 16) := by
  rw [show (32 - a) * Real.pi / 16 = 2 * Real.pi - a * Real.pi / 16 by ring, Real.cos_two_pi_sub]

/-- Frequency 0 has one angle, π/4, whose cosine is its factor α(0) (R46). -/
theorem signed_cos_angle_zero (n : Fin 8) :
    ((angle 0 n).2 : ℝ) * Real.cos (((angle 0 n).1 : ℝ) * Real.pi / 16) = Formula.alpha 0 := by
  have hangle : ((4 : ℕ) : ℝ) * Real.pi / 16 = Real.pi / 4 := by push_cast; ring
  simp only [angle, if_true, Formula.alpha, hangle, Real.cos_pi_div_four, Int.cast_one, one_mul]
  exact Real.sqrt_div_self'

/-- R46: over the reals, the signed cosine of the angle is the basis cosine with its factor: each range of `(2n+1)k mod 32` is reflected
into the first half-turn. -/
theorem signed_cos_angle (k n : Fin 8) :
    ((angle k n).2 : ℝ) * Real.cos (((angle k n).1 : ℝ) * Real.pi / 16) =
      Formula.alpha k * Real.cos ((2 * (n.val : ℝ) + 1) * (k.val : ℝ) * Real.pi / 16) := by
  by_cases hk : k = 0
  · subst hk
    simp [signed_cos_angle_zero]
  have hcast : (2 * (n.val : ℝ) + 1) * (k.val : ℝ) = (((2 * n.val + 1) * k.val : ℕ) : ℝ) := by push_cast; ring
  rw [hcast, cos_grid_mod ((2 * n.val + 1) * k.val)]
  simp only [angle, Formula.alpha, if_neg hk]
  have hlt : ((2 * n.val + 1) * k.val) % 32 < 32 := Nat.mod_lt _ (by decide)
  generalize ((2 * n.val + 1) * k.val) % 32 = m at hlt ⊢
  split_ifs with h1 h2 h3
  · simp
  · rw [Nat.cast_sub (by omega), Nat.cast_ofNat, cos_grid_half_sub]; simp
  · rw [Nat.cast_sub (by omega), Nat.cast_ofNat, cos_grid_sub_half]; simp
  · rw [Nat.cast_sub (by omega), Nat.cast_ofNat, cos_grid_turn_sub]; simp

/-- Settles O37: the ranges by evaluation, the identity by `signed_cos_angle`. -/
theorem romAddressMapIsExact : Obligations.RomAddressMapIsExact := by
  intro k n
  obtain ⟨hlo, hhi, hsign⟩ := angle_range k n
  exact ⟨hlo, hhi, hsign, signed_cos_angle k n⟩

/-! ## The weights -/

/-- The sign of a weight (R46). -/
def romSign (u v x y : Fin 8) : Int := (angle u x).2 * (angle v y).2

/-- The product of the two angle cosines of a weight (R45, R46). -/
noncomputable def angleProduct (u v x y : Fin 8) : ℝ :=
  Real.cos (((angle u x).1 : ℝ) * Real.pi / 16) * Real.cos (((angle v y).1 : ℝ) * Real.pi / 16)

theorem rom_eq_sign_mul_magnitude (u v x y : Fin 8) :
    rom u v x y = romSign u v x y * magnitude (angle u x).1 (angle v y).1 := rfl

theorem romSign_eq_or (u v x y : Fin 8) : romSign u v x y = 1 ∨ romSign u v x y = -1 := by
  obtain ⟨-, -, hu⟩ := angle_range u x
  obtain ⟨-, -, hv⟩ := angle_range v y
  rcases hu with hu | hu <;> rcases hv with hv | hv <;> simp [romSign, hu, hv]

/-- The basis product is the signed product of the two angle cosines, over 4 (R45, R46). -/
theorem basis_eq_sign_mul_angleProduct (u v x y : Fin 8) :
    Formula.basis u v x y = romSign u v x y * (angleProduct u v x y / 4) := by
  calc Formula.basis u v x y
      = (Formula.alpha u * Real.cos ((2 * (x.val : ℝ) + 1) * (u.val : ℝ) * Real.pi / 16)) *
        (Formula.alpha v * Real.cos ((2 * (y.val : ℝ) + 1) * (v.val : ℝ) * Real.pi / 16)) / 4 := by
          unfold Formula.basis; ring
    _ = romSign u v x y * (angleProduct u v x y / 4) := by
          rw [← signed_cos_angle, ← signed_cos_angle, romSign, angleProduct]; push_cast; ring

/-- The sign leaves a weight's error alone: it is the error of the magnitude (R45, R47). -/
theorem abs_rom_sub_basis (u v x y : Fin 8) :
    |(rom u v x y : ℝ) - 2 ^ 30 * Formula.basis u v x y| =
      |(magnitude (angle u x).1 (angle v y).1 : ℝ) - 2 ^ 30 * (angleProduct u v x y / 4)| := by
  have hsign : |((romSign u v x y : Int) : ℝ)| = 1 := by
    rcases romSign_eq_or u v x y with h | h <;> simp [h]
  rw [rom_eq_sign_mul_magnitude, basis_eq_sign_mul_angleProduct, Int.cast_mul, mul_left_comm, ← mul_sub, abs_mul, hsign, one_mul]

/-- R45: a weight is within 1/2 − 10^-6 of the scaled basis product. -/
theorem rom_near_basis (u v x y : Fin 8) :
    |(rom u v x y : ℝ) - 2 ^ 30 * Formula.basis u v x y| < 1 / 2 - 1 / 10 ^ 6 := by
  obtain ⟨hu1, hu7, -⟩ := angle_range u x
  obtain ⟨hv1, hv7, -⟩ := angle_range v y
  rw [abs_rom_sub_basis]
  exact magnitude_near _ _ hu1 hu7 hv1 hv7

/-- R47: no magnitude is 0. -/
theorem magnitude_ne_zero {i j : Nat} (hi1 : 1 ≤ i) (hi7 : i ≤ 7) (hj1 : 1 ≤ j) (hj7 : j ≤ 7) : magnitude i j ≠ 0 := by
  have table : ∀ i j : Fin 8, 1 ≤ i → 1 ≤ j → magnitude i j ≠ 0 := by decide
  exact table ⟨i, by omega⟩ ⟨j, by omega⟩ hi1 hj1

/-- R45: no weight is 0. -/
theorem rom_ne_zero (u v x y : Fin 8) : rom u v x y ≠ 0 := by
  obtain ⟨hu1, hu7, -⟩ := angle_range u x
  obtain ⟨hv1, hv7, -⟩ := angle_range v y
  have hsign : romSign u v x y ≠ 0 := by rcases romSign_eq_or u v x y with h | h <;> simp [h]
  rw [rom_eq_sign_mul_magnitude]
  exact mul_ne_zero hsign (magnitude_ne_zero hu1 hu7 hv1 hv7)

/-- Settles O36: `rom_near_basis` and `rom_ne_zero`. -/
theorem romIsRoundedBasisProduct : Obligations.RomIsRoundedBasisProduct :=
  fun u v x y => ⟨rom_near_basis u v x y, rom_ne_zero u v x y⟩

/-! ## The exact weights -/

/-- R46: the frequencies 0 and 4 have the angle π/4 at every position. -/
theorem angle_index_eq_four {k : Fin 8} (hk : k = 0 ∨ k = 4) (n : Fin 8) : (angle k n).1 = 4 := by
  rcases hk with rfl | rfl <;> revert n <;> decide

/-- R47: `P[4][4]`. -/
theorem magnitude_four_four : magnitude 4 4 = 2 ^ 27 := by decide

/-- R48: for frequencies 0 and 4 the product of the angle cosines is cos²(π/4). -/
theorem angleProduct_eq_half {u v : Fin 8} (hu : u = 0 ∨ u = 4) (hv : v = 0 ∨ v = 4) (x y : Fin 8) :
    angleProduct u v x y = 1 / 2 := by
  have hangle : ((4 : ℕ) : ℝ) * Real.pi / 16 = Real.pi / 4 := by push_cast; ring
  rw [angleProduct, angle_index_eq_four hu, angle_index_eq_four hv, hangle, Real.cos_pi_div_four]
  have h2 : √2 * √2 = (2 : ℝ) := Real.mul_self_sqrt (by norm_num)
  linarith

/-- R48: for frequencies 0 and 4 a weight is the signed 2^27. -/
theorem rom_eq_of_zero_or_four {u v : Fin 8} (hu : u = 0 ∨ u = 4) (hv : v = 0 ∨ v = 4) (x y : Fin 8) :
    rom u v x y = romSign u v x y * 2 ^ 27 := by
  rw [rom_eq_sign_mul_magnitude, angle_index_eq_four hu, angle_index_eq_four hv, magnitude_four_four]

/-- Settles O38: the frequencies 0 and 4 have one angle, π/4, whose cosine squares to 1/2; the general bound is that of R45. -/
theorem exactRomEntries : Obligations.ExactRomEntries := by
  refine ⟨magnitude_four_four, fun u v x y hu hv => ⟨?_, ?_⟩, fun u v x y => ?_⟩
  · rw [rom_eq_of_zero_or_four hu hv]
    rcases romSign_eq_or u v x y with h | h <;> simp [h]
  · rw [rom_eq_of_zero_or_four hu hv, basis_eq_sign_mul_angleProduct, angleProduct_eq_half hu hv]
    push_cast
    ring
  · exact (rom_near_basis u v x y).le.trans (by norm_num)

end Sys2Proof.Machine
end

section
/-! PROOFS. The accesses of the register window: host writes, reads of an idle and of a busy device, byte lanes, and bus masters (R70 to
R78, R86). -/

namespace Sys2Proof.Machine

/-! ## Accesses by the register they reach -/

/-- The register an offset reaches depends on the number of its word alone (R24). -/
theorem locOf_congr {a b : Nat} (h : a / 4 = b / 4) : locOf a = locOf b := by
  have h1 : a < 0x100 ↔ b < 0x100 := by omega
  have h2 : a < 0x200 ↔ b < 0x200 := by omega
  have h3 : a < 0x300 ↔ b < 0x300 := by omega
  have h4 : a < 0x400 ↔ b < 0x400 := by omega
  have h5 : a < 0x500 ↔ b < 0x500 := by omega
  simp only [locOf, entry, h, h1, h2, h3, h4, h5]

/-- An aligned write is the write of the register that stands at its offset (R71). -/
theorem memWrite_of_locOf {off : Nat} {l : Loc} (w : Word) (s : State) (h4 : off % 4 = 0) (hin : off < 0x1000) (hl : locOf off = l) :
    memWrite off 4 w s = .next (writeLoc l w s) := hl ▸ memWrite_aligned off w s h4 hin

/-- An aligned read of an idle device, or of a register no command writes, answers the register that stands at its offset (R74, R77). -/
theorem memRead_of_fixed {off : Nat} {l : Loc} {s : State} {v : Word} (h4 : off % 4 = 0) (hin : off < 0x1000) (hl : locOf off = l)
    (hfixed : s.busy = false ∨ l.openWhileBusy = false) (hv : s.view l = v) : memRead off 4 s = .next (v, s) := by
  subst hl
  rw [memRead_aligned off s h4 hin, readLoc_of_fixed _ s hfixed, hv]

/-! ## Host writes -/

/-- The low half of a word as R38 and R39 name it, bits 15 to 0. -/
theorem setWidth_half_eq_extractLsb (w : Word) : w.setWidth 16 = w.extractLsb' 0 16 := by
  simp [BitVec.extractLsb']

/-- A CFG write: discarded while busy, and of an illegal BITS without effect (R35, R76). -/
theorem writeLoc_cfg (w : Word) (s : State) :
    writeLoc .cfg w s =
      if s.busy then { s with bwe := true }
      else if 1 ≤ (w.extractLsb' 0 5).toNat ∧ (w.extractLsb' 0 5).toNat ≤ 16 then { s with bits := w.extractLsb' 0 5 } else s := by
  simp only [writeLoc, State.unlessBusy, State.setBwe, State.writeCfg, legalBits, Bool.and_eq_true, decide_eq_true_eq]

/-- A write of a SAMPLE entry (R38, R76). -/
theorem writeLoc_sample (k : Fin 64) (w : Word) (s : State) :
    writeLoc (.sample k) w s =
      if s.busy then { s with bwe := true } else { s with sample := s.sample.set k (w.extractLsb' 0 16) } := by
  rw [← setWidth_half_eq_extractLsb]; rfl

/-- A write of a DIV entry (R39, R76). -/
theorem writeLoc_div (k : Fin 64) (w : Word) (s : State) :
    writeLoc (.div k) w s =
      if s.busy then { s with bwe := true } else { s with div := s.div.set k (w.extractLsb' 0 16) } := by
  rw [← setWidth_half_eq_extractLsb]; rfl

/-- Away from the offsets of CTRL, STATUS, CMD, CFG and the buffers a host may write, a write has no effect (R71). -/
theorem writeLoc_of_ignored_offset {off : Nat} (w : Word) (s : State) (ho : offsetOk off = true) (hctrl : off ≠ 0x004)
    (hstatus : off ≠ 0x008) (hcmd : off ≠ 0x00C) (hcfg : off ≠ 0x014) (hbuf : off < 0x100 ∨ 0x400 ≤ off) :
    writeLoc (locOf off) w s = s := by
  cases hl : locOf off with
  | ctrl => exact absurd (eq_offset_of_locOf ho hl (by simp)) hctrl
  | status => exact absurd (eq_offset_of_locOf ho hl (by simp)) hstatus
  | cmd => exact absurd (eq_offset_of_locOf ho hl (by simp)) hcmd
  | cfg => exact absurd (eq_offset_of_locOf ho hl (by simp)) hcfg
  | sample k | div k | coef k =>
    have hoff := eq_offset_of_locOf ho hl (by simp)
    simp only [Loc.offset] at hoff
    omega
  | id | errinfo | nzmaskLo | nzmaskHi | qout | reserved => rfl

/-- Settles O40: the register at each offset, and the write of that register. -/
theorem hostWriteTable : Obligations.HostWriteTable := by
  intro s w
  refine ⟨memWrite_of_locOf w s rfl (by decide) rfl, memWrite_of_locOf w s rfl (by decide) rfl,
    memWrite_of_locOf w s rfl (by decide) rfl, ?_, fun k => ⟨?_, ?_, ?_⟩, ?_⟩
  · rw [memWrite_of_locOf (l := .cfg) w s rfl (by decide) rfl, writeLoc_cfg]
  · rw [memWrite_of_locOf w s (by omega) (by omega) (locOf_sampleOffset k), writeLoc_sample]
  · rw [memWrite_of_locOf w s (by omega) (by omega) (locOf_divOffset k), writeLoc_div]
  · exact memWrite_of_locOf w s (by omega) (by omega) (locOf_coefOffset k)
  · intro off h4 hin hctrl hstatus hcmd hcfg hbuf
    have ho : offsetOk off = true := by simp [offsetOk, h4, hin]
    rw [memWrite_aligned off w s h4 hin, writeLoc_of_ignored_offset w s ho hctrl hstatus hcmd hcfg hbuf]

/-! ## Host reads -/

/-- NZMASK_LO as a number (R37). -/
theorem view_nzmaskLo_eq (s : State) : s.view .nzmaskLo = BitVec.ofNat 32 (s.nzmask.toNat % 2 ^ 32) := by
  apply BitVec.eq_of_toNat_eq
  simp [State.view]

/-- NZMASK_HI as a number (R37). -/
theorem view_nzmaskHi_eq (s : State) : s.view .nzmaskHi = BitVec.ofNat 32 (s.nzmask.toNat / 2 ^ 32) := by
  apply BitVec.eq_of_toNat_eq
  simp [State.view, Nat.shiftRight_eq_div_pow]

/-- Settles O41: the register at each offset, and its value as a number. -/
theorem idleReadTable : Obligations.IdleReadTable := by
  intro s hb
  have hfixed (l : Loc) : s.busy = false ∨ l.openWhileBusy = false := .inl hb
  have hstatus := statusWord_eq s
  simp only [hb, Bool.toNat_false, Nat.zero_add] at hstatus
  refine ⟨memRead_of_fixed rfl (by decide) rfl (hfixed .id) rfl,
    memRead_of_fixed rfl (by decide) rfl (hfixed .ctrl) (ctrlWord_eq s),
    memRead_of_fixed rfl (by decide) rfl (hfixed .status) hstatus,
    memRead_of_fixed rfl (by decide) rfl (hfixed .cmd) rfl,
    memRead_of_fixed rfl (by decide) rfl (hfixed .errinfo) (errinfoWord_eq s),
    memRead_of_fixed rfl (by decide) rfl (hfixed .cfg) (cfgWord_eq s),
    memRead_of_fixed rfl (by decide) rfl (hfixed .nzmaskLo) (view_nzmaskLo_eq s),
    memRead_of_fixed rfl (by decide) rfl (hfixed .nzmaskHi) (view_nzmaskHi_eq s), fun k => ⟨?_, ?_, ?_, ?_⟩, ?_⟩
  · exact memRead_of_fixed (by omega) (by omega) (locOf_sampleOffset k) (hfixed _) rfl
  · exact memRead_of_fixed (by omega) (by omega) (locOf_divOffset k) (hfixed _) rfl
  · exact memRead_of_fixed (by omega) (by omega) (locOf_coefOffset k) (hfixed _) rfl
  · exact memRead_of_fixed (by omega) (by omega) (locOf_qoutOffset k) (hfixed _) rfl
  · intro off h4 hres
    exact memRead_of_fixed h4 (by omega) (locOf_reservedOffset off h4 hres) (hfixed _) rfl

/-- The offsets of ERRINFO, NZMASK, DIV, COEF and QOUT are those of the registers a running command may write (R77). -/
theorem openWhileBusy_locOf {off : Nat} (h4 : off % 4 = 0)
    (h : off = 0x010 ∨ off = 0x018 ∨ off = 0x01C ∨ (0x200 ≤ off ∧ off < 0x500)) : (locOf off).openWhileBusy = true := by
  rcases h with rfl | rfl | rfl | ⟨hlo, hhi⟩
  · rfl
  · rfl
  · rfl
  · unfold locOf
    rw [if_neg (by omega), if_neg (by omega)]
    split_ifs
    · rfl
    · rfl
    · rfl

/-- Such a register read while busy answers a free value, and only the counter of draws moves (R77, log 3). -/
theorem readLoc_of_open {l : Loc} {s : State} (hb : s.busy = true) (hl : l.openWhileBusy = true) :
    readLoc l s = (Config.busyRead s.inst s.draws, { s with draws := s.draws + 1 }) := by
  simp [readLoc, hb, hl]

/-- Settles O42: `memRead_of_fixed` at the registers no command writes, `readLoc_of_open` at the others. -/
theorem busyReadTable : Obligations.BusyReadTable := by
  intro s hb
  have hstatus := statusWord_eq s
  simp only [hb, Bool.toNat_true] at hstatus
  refine ⟨memRead_of_fixed (l := .id) rfl (by decide) rfl (.inr rfl) rfl,
    memRead_of_fixed (l := .ctrl) rfl (by decide) rfl (.inr rfl) (ctrlWord_eq s),
    memRead_of_fixed (l := .status) rfl (by decide) rfl (.inr rfl) hstatus,
    memRead_of_fixed (l := .cmd) rfl (by decide) rfl (.inr rfl) rfl,
    memRead_of_fixed (l := .cfg) rfl (by decide) rfl (.inr rfl) (cfgWord_eq s), fun k => ?_, ?_, ?_⟩
  · exact memRead_of_fixed (by omega) (by omega) (locOf_sampleOffset k) (.inr rfl) rfl
  · intro off h4 hres
    exact memRead_of_fixed h4 (by omega) (locOf_reservedOffset off h4 hres) (.inr rfl) rfl
  · intro off h4 hopen
    rw [memRead_aligned off s h4 (by omega), readLoc_of_open hb (openWhileBusy_locOf h4 hopen)]

/-! ## Byte lanes -/

/-- Settles O44: the four lanes at an aligned offset carry one register, each the eight bits at its place. -/
theorem byteLanesAreLittleEndian : Obligations.ByteLanesAreLittleEndian := by
  intro s off b h4
  have hloc : locOf (off + b.val / 8) = locOf off := locOf_congr (by omega)
  have hlane : (off + b.val / 8) % 4 = b.val / 8 := by omega
  have hbit : b.val % 8 < 8 := Nat.mod_lt _ (by decide)
  rw [State.viewByte, hloc, hlane, BitVec.getLsbD_extractLsb', decide_eq_true hbit, Bool.true_and, Nat.div_add_mod]

/-! ## Refused accesses and other bus masters -/

@[simp] theorem andThen_refused {α β : Type} (r : Refusal) (f : α → Host.Outcome β Fault Refusal) :
    andThen (.refused r) f = .refused r := rfl

/-- R72: a size other than 4, or a misaligned offset, reaches no register. -/
theorem accessLoc_not_aligned {off size : Nat} (h : size ≠ 4 ∨ off % 4 ≠ 0) :
    accessLoc off size = .refused .accessNotAlignedWord := if_pos h

/-- R24, R70: an aligned access past the window reaches no register. -/
theorem accessLoc_outside {off : Nat} (h4 : off % 4 = 0) (hout : 0x1000 ≤ off) : accessLoc off 4 = .refused .outsideWindow := by
  unfold accessLoc
  rw [if_neg (by omega), if_neg (by omega)]

/-- Settles O45: both accesses go through `accessLoc`, which refuses. -/
theorem subwordAccessIsRefused : Obligations.SubwordAccessIsRefused := by
  intro s off size w h
  simp only [memRead, memWrite, accessLoc_not_aligned h, andThen_refused, and_self]

/-- BASE is aligned to a word (R24). -/
theorem State.base_mod_four (s : State) : s.base % 4 = 0 := by unfold State.base; omega

/-- The address BASE + off has the offset off (R24). -/
@[simp] theorem State.offsetOf_base_add (s : State) (off : Nat) : s.offsetOf (s.base + off) = .next off := by
  simp [State.offsetOf]

/-- A master's write at BASE + off is the write of the register at off (R70, R86). -/
theorem busAccess_write_base_add (off size : Nat) (w : Word) (s : State) :
    busAccess (.write (s.base + off) size w) s = memWrite off size w s := by
  simp only [busAccess, State.offsetOf_base_add, andThen_next]

/-- A master's read at BASE + off is the read of the register at off, whose word is kept in `rdata` (R70, R86, log 4). -/
theorem busAccess_read_base_add (off size : Nat) (s : State) :
    busAccess (.read (s.base + off) size) s = andThen (memRead off size s) fun r => .next { r.2 with rdata := r.1 } := by
  simp only [busAccess, State.offsetOf_base_add, andThen_next]

/-- An aligned address outside the window has no offset, or one past its end, so its access is refused (log 9). -/
theorem busAccess_outside {addr : Nat} {s : State} (w : Word) (h4 : addr % 4 = 0)
    (hout : addr < s.base ∨ s.base + 0x1000 ≤ addr) :
    busAccess (.write addr 4 w) s = .refused .outsideWindow ∧ busAccess (.read addr 4) s = .refused .outsideWindow := by
  rcases hout with hlt | hge
  · have hoff : s.offsetOf addr = .refused .outsideWindow := if_neg (by omega)
    simp only [busAccess, hoff, andThen_refused, and_self]
  · have hoff : s.offsetOf addr = .next (addr - s.base) := if_pos (by omega)
    have hbase := s.base_mod_four
    have hloc := accessLoc_outside (off := addr - s.base) (by omega) (by omega)
    simp only [busAccess, hoff, andThen_next, memRead, memWrite, hloc, andThen_refused, and_self]

/-- A step whose turn is a single access is that access, from the state with the turns that are left (log 5). -/
theorem step_of_bus {s : State} {a : Access} {rest : List Turn} (h : s.turns = .bus a :: rest) :
    step s = busAccess a { s with turns := rest } := by
  rw [step_eq]
  simp only [State.nextTurn, State.popTurn, h, takeTurn, List.tail_cons]

/-- Settles O46: `step_of_bus`, and what that access is inside and outside the window. -/
theorem masterAccessesReachTheWindow : Obligations.MasterAccessesReachTheWindow := by
  intro s rest
  refine ⟨fun off size w a hturn hw => ?_, fun off size v a hturn hr => ?_, fun addr w h4 hout hturn => ?_⟩
  · rw [step_of_bus hturn, ← hw]
    exact busAccess_write_base_add off size w { s with turns := rest }
  · have hread := busAccess_read_base_add off size { s with turns := rest }
    rw [hr, andThen_next] at hread
    rw [step_of_bus hturn]
    exact hread
  · obtain ⟨hwrite, hread⟩ := busAccess_outside (s := { s with turns := rest }) w h4 hout
    rcases hturn with hturn | hturn <;> rw [step_of_bus hturn]
    · exact hwrite
    · exact hread

end Sys2Proof.Machine
end

section
/-! PROOFS. The opcode map, the two round trips of decoder and encoder, and the illegal words (R100 to R107). -/

namespace Sys2Proof

/-! ## The rows of the opcode map -/

/-- In a list of pairwise incompatible entries the search finds whichever entry matches. -/
theorem find?_eq_some_of_pairwise {α : Type} {p : α → Bool} {l : List α} (hl : l.Pairwise fun a b => ¬(p a = true ∧ p b = true))
    {a : α} (ha : a ∈ l) (hp : p a = true) : l.find? p = some a := by
  induction hl with
  | nil => cases ha
  | cons hx _ ih =>
    rcases List.mem_cons.1 ha with rfl | hmem
    · exact List.find?_cons_of_pos hp
    · rw [List.find?_cons_of_neg fun hpx => hx a hmem ⟨hpx, hp⟩, ih hmem]

/-- R103: no two rows match one word, since of any two rows the match words differ under both masks. -/
theorem opcodeMap_disjoint (w : Word) :
    opcodeMap.Pairwise fun a b => ¬(w &&& a.mask = a.matchWord ∧ w &&& b.mask = b.matchWord) := by
  have hdiffer : opcodeMap.Pairwise fun a b => a.matchWord &&& b.mask ≠ b.matchWord &&& a.mask := by decide
  refine hdiffer.imp ?_
  rintro a b hne ⟨ha, hb⟩
  exact hne (by rw [← ha, ← hb, BitVec.and_assoc, BitVec.and_assoc, BitVec.and_comm a.mask])

/-- R103: a word decodes to what the rows it matches build, of which there is at most one. -/
theorem decode_eq_ok_iff_row {w : Word} {i : Instr} :
    decode w = .ok i ↔ ∃ row ∈ opcodeMap, w &&& row.mask = row.matchWord ∧ row.build w = i := by
  constructor
  · intro h
    unfold decode at h
    split at h
    next row hfind =>
      exact ⟨row, List.mem_of_find?_eq_some hfind, by simpa using List.find?_some hfind, Except.ok.inj h⟩
    next => cases h
  · rintro ⟨row, hrow, hmatch, rfl⟩
    have hfind : opcodeMap.find? (fun r => w &&& r.mask == r.matchWord) = some row :=
      find?_eq_some_of_pairwise (by simpa using opcodeMap_disjoint w) hrow (by simpa using hmatch)
    rw [decode, hfind]

theorem decode_eq_nop_iff {w : Word} : decode w = .ok .nop ↔ w &&& 0xFFFFFFFF = 0 := by
  simp [decode_eq_ok_iff_row, opcodeMap]

theorem decode_eq_fdct_iff {w : Word} {r c : BitVec 4} :
    decode w = .ok (.fdct r c) ↔ w &&& 0xFFFF00FF = 1 ∧ fieldRows w = r ∧ fieldCols w = c := by
  simp [decode_eq_ok_iff_row, opcodeMap]

theorem decode_eq_quant_iff {w : Word} {r c : BitVec 4} :
    decode w = .ok (.quant r c) ↔ w &&& 0xFFFF00FF = 2 ∧ fieldRows w = r ∧ fieldCols w = c := by
  simp [decode_eq_ok_iff_row, opcodeMap]

theorem decode_eq_fdctq_iff {w : Word} {r c : BitVec 4} :
    decode w = .ok (.fdctq r c) ↔ w &&& 0xFFFF00FF = 3 ∧ fieldRows w = r ∧ fieldCols w = c := by
  simp [decode_eq_ok_iff_row, opcodeMap]

theorem decode_eq_lddiv_iff {w : Word} {tbl : BitVec 4} : decode w = .ok (.lddiv tbl) ↔ w &&& 0xFFFFFFFF = 4 ∧ tbl = 0 := by
  have hrow : decode w = .ok (.lddiv tbl) ↔ w &&& 0xFFFFFFFF = 4 ∧ fieldTbl w = tbl := by
    simp [decode_eq_ok_iff_row, opcodeMap]
  rw [hrow, and_full_mask]
  refine and_congr_right ?_
  rintro rfl
  exact eq_comm

/-- Settles O1: the five rows, and `opcodeMap_disjoint`. -/
theorem opcodeMapDecodesExactly : Obligations.OpcodeMapDecodesExactly := fun w =>
  ⟨decode_eq_nop_iff, fun _ _ => decode_eq_fdct_iff, fun _ _ => decode_eq_quant_iff, fun _ _ => decode_eq_fdctq_iff,
    fun _ => decode_eq_lddiv_iff, opcodeMap_disjoint w⟩

/-- Settles O4: each word matches its row, and its shape fields are the operands. -/
theorem canonicalWordsDecode : Obligations.CanonicalWordsDecode :=
  ⟨decode_eq_nop_iff.2 rfl, decode_eq_fdct_iff.2 ⟨rfl, rfl, rfl⟩, decode_eq_fdct_iff.2 ⟨rfl, rfl, rfl⟩,
    decode_eq_fdct_iff.2 ⟨rfl, rfl, rfl⟩, decode_eq_quant_iff.2 ⟨rfl, rfl, rfl⟩, decode_eq_quant_iff.2 ⟨rfl, rfl, rfl⟩,
    decode_eq_fdctq_iff.2 ⟨rfl, rfl, rfl⟩, decode_eq_lddiv_iff.2 ⟨rfl, rfl⟩⟩

/-! ## The round trips -/

/-- R100: a word is determined by its five fields. -/
theorem word_eq_iff_fields {v w : Word} :
    v = w ↔ fieldOp v = fieldOp w ∧ fieldRows v = fieldRows w ∧ fieldCols v = fieldCols w ∧ fieldTbl v = fieldTbl w ∧
      fieldRsv v = fieldRsv w := by
  constructor
  · rintro rfl
    exact ⟨rfl, rfl, rfl, rfl, rfl⟩
  · rintro ⟨hop, hrows, hcols, htbl, hrsv⟩
    rw [word_eq_fields v, word_eq_fields w, hop, hrows, hcols, htbl, hrsv]

/-- R101, R103: a word matches the row of opcode `m` with the shape `r`, `c` exactly when it is the command word that holds these three
fields and no other. -/
theorem matches_shape_row_iff {i : Instr} {m : BitVec 8} {r c : BitVec 4} (w : Word)
    (hfields : fieldRsv (encode i) = 0 ∧ fieldOp (encode i) = m ∧ fieldRows (encode i) = r ∧ fieldCols (encode i) = c ∧
      fieldTbl (encode i) = 0) :
    (w &&& 0xFFFF00FF = m.setWidth 32 ∧ fieldRows w = r ∧ fieldCols w = c) ↔ encode i = w := by
  obtain ⟨hrsv, rfl, rfl, rfl, htbl⟩ := hfields
  rw [masked_eq_iff, eq_comm (a := encode i), word_eq_iff_fields, hrsv, htbl]
  tauto

/-- R100 to R107: a word decodes to a command exactly when the command is well formed and the word is its own. -/
theorem decode_eq_ok_iff {w : Word} {i : Instr} : decode w = .ok i ↔ i.wellFormed = true ∧ encode i = w := by
  cases i with
  | nop =>
    rw [decode_eq_nop_iff, and_full_mask, eq_comm]
    exact (and_iff_right rfl).symm
  | fdct r c =>
    exact decode_eq_fdct_iff.trans ((matches_shape_row_iff w (Laws.EncodedFields.fdct r c)).trans (and_iff_right rfl).symm)
  | quant r c =>
    exact decode_eq_quant_iff.trans ((matches_shape_row_iff w (Laws.EncodedFields.quant r c)).trans (and_iff_right rfl).symm)
  | fdctq r c =>
    exact decode_eq_fdctq_iff.trans ((matches_shape_row_iff w (Laws.EncodedFields.fdctq r c)).trans (and_iff_right rfl).symm)
  | lddiv tbl =>
    rw [decode_eq_lddiv_iff, and_full_mask, Instr.wellFormed, beq_iff_eq, and_comm]
    refine and_congr_right ?_
    rintro rfl
    exact eq_comm

/-- Settles O2: `decode_eq_ok_iff`, from the command to its word. -/
theorem decodeOfEncode : Obligations.DecodeOfEncode := fun _ hwf => decode_eq_ok_iff.2 ⟨hwf, rfl⟩

/-- Settles O3: `decode_eq_ok_iff`, from the word to its command. -/
theorem encodeOfDecode : Obligations.EncodeOfDecode := fun _ _ => decode_eq_ok_iff.1

/-! ## The illegal words -/

/-- R103: the words that decode, by their fields. -/
theorem decodes_iff_fields (w : Word) :
    (∃ i, decode w = .ok i) ↔
      fieldRsv w = 0 ∧ fieldTbl w = 0 ∧
        (fieldOp w = 1 ∨ fieldOp w = 2 ∨ fieldOp w = 3 ∨ ((fieldOp w = 0 ∨ fieldOp w = 4) ∧ fieldRows w = 0 ∧ fieldCols w = 0)) := by
  have hrows : (∃ i, decode w = .ok i) ↔ ∃ row ∈ opcodeMap, w &&& row.mask = row.matchWord := by
    simp only [decode_eq_ok_iff_row]
    exact ⟨fun ⟨_, row, hrow, hmatch, _⟩ => ⟨row, hrow, hmatch⟩, fun ⟨row, hrow, hmatch⟩ => ⟨_, row, hrow, hmatch, rfl⟩⟩
  have hnop : w = 0 ↔ fieldOp w = 0 ∧ fieldRows w = 0 ∧ fieldCols w = 0 ∧ fieldTbl w = 0 ∧ fieldRsv w = 0 := word_eq_iff_fields
  have hlddiv : w = 4 ↔ fieldOp w = 4 ∧ fieldRows w = 0 ∧ fieldCols w = 0 ∧ fieldTbl w = 0 ∧ fieldRsv w = 0 := word_eq_iff_fields
  have hfdct : w &&& 0xFFFF00FF = 1 ↔ fieldOp w = 1 ∧ fieldTbl w = 0 ∧ fieldRsv w = 0 := masked_eq_iff w 1
  have hquant : w &&& 0xFFFF00FF = 2 ↔ fieldOp w = 2 ∧ fieldTbl w = 0 ∧ fieldRsv w = 0 := masked_eq_iff w 2
  have hfdctq : w &&& 0xFFFF00FF = 3 ↔ fieldOp w = 3 ∧ fieldTbl w = 0 ∧ fieldRsv w = 0 := masked_eq_iff w 3
  rw [hrows]
  simp only [opcodeMap, List.exists_mem_cons_iff, List.not_mem_nil, false_and, exists_false, or_false, and_full_mask, hnop, hlddiv,
    hfdct, hquant, hfdctq]
  grind

/-- R105: the five cases of an illegal word. -/
def IllegalCases (w : Word) : Prop :=
  5 ≤ (fieldOp w).toNat ∨ fieldRsv w ≠ 0 ∨ (fieldTbl w ≠ 0 ∧ (fieldOp w).toNat ≤ 3) ∨
    ((fieldRows w ≠ 0 ∨ fieldCols w ≠ 0) ∧ (fieldOp w = 0 ∨ fieldOp w = 4)) ∨ (fieldTbl w ≠ 0 ∧ fieldOp w = 4)

/-- R105: the words that decode to nothing are those of the five cases. -/
theorem illegal_iff_cases (w : Word) : (∀ i, decode w ≠ .ok i) ↔ IllegalCases w := by
  rw [← not_exists_not]
  simp only [ne_eq, not_not, decodes_iff_fields, IllegalCases]
  generalize fieldOp w = op
  bv_omega

open Machine

/-- R105, R194: the completion of a word that decodes to nothing fails it with IllegalCommand and the word's opcode. -/
theorem completeWord_of_illegal {w : Word} (h : ∀ i, decode w ≠ .ok i) (s : State) :
    completeWord w s = .next (s.fail .illegal (fieldOp w)) := by
  unfold completeWord
  split
  next i hi => exact absurd hi (h i)
  next => rfl

/-- R170: an idle engine accepts any word written to CMD. -/
theorem memWrite_cmd_idle {s : State} (w : Word) (hb : s.busy = false) : memWrite 0x00C 4 w s = .next (s.accept w) := by
  rw [memWrite_of_locOf (l := .cmd) w s rfl (by decide) rfl, writeLoc, State.issueCommand, hb, if_neg Bool.false_ne_true]

/-- Settles O5: `illegal_iff_cases`; the acceptance of any word, and the completion of an illegal one. -/
theorem illegalWordsAreAcceptedAndFail : Obligations.IllegalWordsAreAcceptedAndFail := by
  intro w
  refine ⟨illegal_iff_cases w, fun s hillegal hb => ⟨s.accept w, memWrite_cmd_idle w hb, rfl, ?_⟩⟩
  rw [engineTurn_busy (State.accept_busy w s) (State.accept_pending w s), completeWord_of_illegal hillegal]
  rfl

end Sys2Proof
end

section
/-! PROOFS. The host's turn for each operation a host program holds, and the loop of `wait` (R108, R109). -/

namespace Sys2Proof.Machine

/-! ## The host's turn for each operation -/

/-- A write to the window leaves the host's place alone. -/
theorem memWrite_keeps_hostPc {off size : Nat} {w : Word} {s a : State} (h : memWrite off size w s = .next a) :
    a.hostPc = s.hostPc := by
  obtain ⟨-, -, -, rfl⟩ := memWrite_eq_next.1 h
  obtain ⟨-, hpc, -, -⟩ := writeLoc_keeps_host (locOf off) w s
  exact hpc

/-- A read of the window leaves the host's place and its scratch registers alone. -/
theorem memRead_keeps_hostPc_t {off size : Nat} {v : Word} {s a : State} (h : memRead off size s = .next (v, a)) :
    a.hostPc = s.hostPc ∧ a.t = s.t := by
  obtain ⟨-, -, -, hread⟩ := memRead_eq_next.1 h
  obtain rfl : a = (readLoc (locOf off) s).2 := congrArg Prod.snd hread
  rcases readLoc_cases (locOf off) s with ⟨e, -⟩ | ⟨e, -, -⟩ <;> rw [e] <;> exact ⟨rfl, rfl⟩

section
variable {s : State} {rest : List Turn} (ht : s.turns = .host :: rest)
include ht

theorem step_sw {off : Nat} {imm : Word} {a : State} (ho : s.hostProg[s.hostPc]? = some (.sw off imm))
    (hw : memWrite off 4 imm { s with turns := rest } = .next a) : step s = .next { a with hostPc := s.hostPc + 1 } := by
  have hpc : a.hostPc = s.hostPc := memWrite_keeps_hostPc (s := { s with turns := rest }) hw
  rw [step_host ht ho, hostOp, hw, andThen_next, State.advanceHost, hpc]

theorem step_swt {off : Nat} {r : Fin 8} {a : State} (ho : s.hostProg[s.hostPc]? = some (.swt off r))
    (hw : memWrite off 4 s.t[r] { s with turns := rest } = .next a) : step s = .next { a with hostPc := s.hostPc + 1 } := by
  have hpc : a.hostPc = s.hostPc := memWrite_keeps_hostPc (s := { s with turns := rest }) hw
  rw [step_host ht ho, hostOp, hw, andThen_next, State.advanceHost, hpc]

theorem step_lw {r : Fin 8} {off : Nat} {v : Word} {a : State} (ho : s.hostProg[s.hostPc]? = some (.lw r off))
    (hr : memRead off 4 { s with turns := rest } = .next (v, a)) :
    step s = .next { a with t := s.t.set r v, hostPc := s.hostPc + 1 } := by
  obtain ⟨hpc, hregs⟩ : a.hostPc = s.hostPc ∧ a.t = s.t := memRead_keeps_hostPc_t (s := { s with turns := rest }) hr
  rw [step_host ht ho, hostOp, hr, andThen_next, State.advanceHost, State.setT, hpc, hregs]

theorem step_andi {r m : Fin 8} {imm : Word} (ho : s.hostProg[s.hostPc]? = some (.andi r m imm)) :
    step s = .next { s with turns := rest, t := s.t.set r (s.t[m] &&& imm), hostPc := s.hostPc + 1 } :=
  step_host ht ho

theorem step_bnez {r : Fin 8} {l n : Nat} (ho : s.hostProg[s.hostPc]? = some (.bnez r l)) (hl : labelPlace s.hostProg l = some n) :
    step s = .next { s with turns := rest, hostPc := if s.t[r] ≠ 0 then n else s.hostPc + 1 } := by
  rw [step_host ht ho, hostOp, hl]
  by_cases h0 : s.t[r] ≠ 0
  · simp only [if_pos h0]
  · simp only [if_neg h0, State.advanceHost]

theorem step_label {name : Nat} (ho : s.hostProg[s.hostPc]? = some (.label name)) :
    step s = .next { s with turns := rest, hostPc := s.hostPc + 1 } :=
  step_host ht ho

theorem step_halt (ho : s.hostProg[s.hostPc]? = some .halt) : step s = .next { s with turns := rest } :=
  step_host ht ho

end

/-- Settles O59: the host's turn for each operation. -/
theorem hostOperationsRun : Obligations.HostOperationsRun := fun _ _ ht =>
  ⟨fun _ _ _ => step_sw ht, fun _ _ _ => step_swt ht, fun _ _ _ _ => step_lw ht, fun _ _ _ => step_andi ht,
    fun _ _ _ => step_bnez ht, step_halt ht⟩

/-! ## One round of `wait` -/

/-- The operations of `wait` follow what stands before it. -/
theorem getElem?_wait {before after : List HostOp} {l k : Nat} (hk : k < 4) :
    (before ++ pseudoWait l ++ after)[before.length + k]? = (pseudoWait l)[k]? := by
  rw [List.append_assoc, List.getElem?_append_right (Nat.le_add_right _ _), Nat.add_sub_cancel_left, List.getElem?_append_left hk]

/-- The label of `wait` is found at its own place, where none of the operations before it is that label (R109, log 7). -/
theorem labelPlace_wait {before after : List HostOp} {l : Nat} (h : .label l ∉ before) :
    labelPlace (before ++ pseudoWait l ++ after) l = some before.length := by
  rw [labelPlace, List.idxOf?_eq_some_iff, List.append_assoc]
  refine ⟨by simp [pseudoWait], by simp [pseudoWait], fun j hj hlabel => h ?_⟩
  rw [← hlabel, List.getElem_append_left hj]
  exact List.getElem_mem hj

/-- R27, R80: the bit that `wait` keeps of STATUS is BUSY. -/
theorem statusWord_and_one (s : State) : s.statusWord &&& 1#32 = if s.busy then 1#32 else 0#32 := by
  unfold State.statusWord
  cases s.busy <;> cases s.done <;> cases s.err <;> cases s.ovr <;> cases s.bwe <;> rfl

/-- A host's read of STATUS answers it as it is, busy or idle (R77, R80). -/
theorem step_lw_status {s : State} {rest : List Turn} {r : Fin 8} (ht : s.turns = .host :: rest)
    (ho : s.hostProg[s.hostPc]? = some (.lw r 0x008)) :
    step s = .next { s with turns := rest, t := s.t.set r s.statusWord, hostPc := s.hostPc + 1 } :=
  step_lw ht ho (memRead_of_fixed (l := .status) rfl (by decide) rfl (.inr rfl) rfl)

/-- Settles O60: the label, the read of STATUS, its BUSY bit, and the branch on it. -/
theorem waitLoopsUntilIdle : Obligations.WaitLoopsUntilIdle := by
  intro s l before after rest hprog hfresh hpc hturns
  have hop {k : Nat} (hk : k < 4) : s.hostProg[s.hostPc + k]? = (pseudoWait l)[k]? := by rw [hprog, hpc, getElem?_wait hk]
  have hplace : labelPlace s.hostProg l = some s.hostPc := by rw [hprog, hpc, labelPlace_wait hfresh]
  have hlabel : step s = .next { s with turns := .host :: .host :: .host :: rest, hostPc := s.hostPc + 1 } :=
    step_label hturns (hop (k := 0) (by decide))
  have hlw : step { s with turns := .host :: .host :: .host :: rest, hostPc := s.hostPc + 1 } =
      .next { s with turns := .host :: .host :: rest, t := s.t.set 7 s.statusWord, hostPc := s.hostPc + 2 } :=
    step_lw_status (r := 7) rfl (hop (k := 1) (by decide))
  have handi : step { s with turns := .host :: .host :: rest, t := s.t.set 7 s.statusWord, hostPc := s.hostPc + 2 } =
      .next { s with turns := .host :: rest, t := s.t.set 7 (if s.busy then 1 else 0), hostPc := s.hostPc + 3 } := by
    rw [step_andi rfl (hop (k := 2) (by decide))]
    simp [statusWord_and_one]
  have hbnez : step { s with turns := .host :: rest, t := s.t.set 7 (if s.busy then 1 else 0), hostPc := s.hostPc + 3 } =
      .next { s with turns := rest, t := s.t.set 7 (if s.busy then 1 else 0),
                     hostPc := if s.busy then before.length else before.length + 4 } := by
    refine Eq.trans (step_bnez (r := 7) rfl (hop (k := 3) (by decide)) hplace) ?_
    cases hb : s.busy <;> simp [hpc]
  simp only [runSteps, hlabel, hlw, handi, hbnez, andThen_next]

end Sys2Proof.Machine
end

section
/-! PROOFS. The forward transform as arithmetic: the rounding unit, the level shift, the bounds and the linearity of the direct sum
(R120, R121, R126, R129, R132). -/

namespace Sys2Proof.Machine

/-! ## Rounding by 2^30 -/

/-- R129: adding 2^29 and shifting by 30 is the division of R11. -/
theorem shiftRight_eq_roundHAZ_quotient (n : Nat) :
    (((n + 2 ^ 29) >>> 30 : Nat) : Int) = (2 * (n : Int) + 2 ^ 30) / (2 * 2 ^ 30) := by
  rw [Nat.shiftRight_eq_div_pow]
  omega

theorem roundingUnit_eq_roundHAZ (acc : Int) : roundingUnit acc = roundHAZ acc (2 ^ 30) := by
  simp only [roundingUnit, roundHAZ, shiftRight_eq_roundHAZ_quotient]
  rcases lt_trichotomy acc 0 with hneg | rfl | hpos
  · rw [if_neg (by omega), Int.sign_eq_neg_one_of_neg hneg, neg_one_mul]
  · rfl
  · rw [if_pos hpos.le, Int.sign_eq_one_of_pos hpos, one_mul]

theorem natAbs_roundingUnit (acc : Int) : (roundingUnit acc).natAbs = (acc.natAbs + 2 ^ 29) / 2 ^ 30 := by
  rw [← Nat.shiftRight_eq_div_pow]
  simp only [roundingUnit]
  split_ifs
  · exact Int.natAbs_natCast _
  · rw [Int.natAbs_neg, Int.natAbs_natCast]

/-- Settles O26: the unit is `RoundHAZ` by 2^30, and the rest are the laws of `RoundHAZ`. -/
theorem roundingUnitIsRoundHaz : Obligations.RoundingUnitIsRoundHaz := by
  intro acc
  refine ⟨roundingUnit_eq_roundHAZ acc, natAbs_roundingUnit acc, ?_, fun htie => ?_, rfl, ?_⟩
  · rw [roundingUnit_eq_roundHAZ]
    exact two_mul_natAbs_roundHAZ_error_le acc (by norm_num)
  · rw [roundingUnit_eq_roundHAZ]
    exact roundHAZ_tie acc (b := 2 ^ 30) (by norm_num) (by norm_num; omega)
  · rw [roundingUnit_eq_roundHAZ, roundingUnit_eq_roundHAZ, roundHAZ_neg]

/-- A common positive factor cancels (R11). -/
theorem roundHAZ_mul_mul {c : Int} (hc : 0 < c) (a b : Int) : roundHAZ (c * a) (c * b) = roundHAZ a b := by
  have hnum : 2 * (((c * a).natAbs : Nat) : Int) + c * b = c * (2 * (a.natAbs : Int) + b) := by
    rw [Int.natAbs_mul, Nat.cast_mul, Int.natAbs_of_nonneg hc.le]
    ring
  rw [roundHAZ, roundHAZ, hnum, mul_left_comm 2 c b, Int.mul_ediv_mul_of_pos _ _ hc, Int.sign_mul, Int.sign_eq_one_of_pos hc, one_mul]

/-! ## The level shift -/

theorem shifted_bounds (sample : Matrix Half) {bits : BitVec 5} (h16 : bits.toNat ≤ 16) (x y : Fin 8) :
    -65536 ≤ shifted sample bits x y ∧ shifted sample bits x y ≤ 32766 := by
  have hlow : 1 ≤ levelShift bits := one_le_pow₀ (by norm_num)
  have hhigh : levelShift bits ≤ 2 ^ 15 := pow_le_pow_right₀ (by norm_num) (by omega)
  have hmin := (sample[idx x y]).le_toInt
  have hmax := (sample[idx x y]).toInt_lt
  unfold shifted
  omega

/-- Settles O29: the formula is the definition, and the range is `shifted_bounds`. -/
theorem levelShiftRange : Obligations.LevelShiftRange :=
  fun sample _ _ h16 x y => ⟨rfl, shifted_bounds sample h16 x y⟩

/-! ## Bounds of the accumulator and of the coefficient -/

/-- R125: the bound of a weight, as an absolute value. -/
theorem abs_rom_le (u v x y : Fin 8) : |rom u v x y| ≤ 258218740 := by
  rw [Int.abs_eq_natAbs]
  exact_mod_cast rom_natAbs_le u v x y

/-- R126: 64 products, each at most the largest sample times the largest weight. -/
theorem abs_directSum_le {d : Fin 8 → Fin 8 → Int} {B : Int} (hd : ∀ x y, |d x y| ≤ B) (u v : Fin 8) :
    |directSum d u v| ≤ 64 * (B * 258218740) := by
  have hterm (x y : Fin 8) : |d x y * rom u v x y| ≤ B * 258218740 := by
    rw [abs_mul]
    exact mul_le_mul (hd x y) (abs_rom_le u v x y) (abs_nonneg _) ((abs_nonneg _).trans (hd x y))
  calc |directSum d u v| = |∑ x : Fin 8, ∑ y : Fin 8, d x y * rom u v x y| := by rw [directSum_eq_sum]
    _ ≤ ∑ x : Fin 8, |∑ y : Fin 8, d x y * rom u v x y| := Finset.abs_sum_le_sum_abs _ _
    _ ≤ ∑ x : Fin 8, ∑ y : Fin 8, |d x y * rom u v x y| := Finset.sum_le_sum fun _ _ => Finset.abs_sum_le_sum_abs _ _
    _ ≤ ∑ _x : Fin 8, ∑ _y : Fin 8, B * 258218740 := Finset.sum_le_sum fun x _ => Finset.sum_le_sum fun y _ => hterm x y
    _ = 64 * (B * 258218740) := by simp only [Finset.sum_const, Finset.card_univ, Fintype.card_fin, nsmul_eq_mul]; ring

/-- Twice the error of the rounding of R121, over 2^30. -/
def roundingError (d : Fin 8 → Fin 8 → Int) (u v : Fin 8) : Int := 2 * (2 ^ 30 * coefficient d u v - directSum d u v)

/-- R129: the rounding is to the nearest. -/
theorem abs_roundingError_le (d : Fin 8 → Fin 8 → Int) (u v : Fin 8) : |roundingError d u v| ≤ 2 ^ 30 := by
  obtain ⟨upper, lower⟩ := roundHAZ_near (directSum d u v) (b := 2 ^ 30) (by norm_num)
  exact abs_le.2 ⟨lower, upper⟩

section
variable {d : Fin 8 → Fin 8 → Int} (hd : ∀ x y, -65536 ≤ d x y ∧ d x y ≤ 32766) (u v : Fin 8)
include hd

/-- R126: the accumulator over the range of R120. -/
theorem abs_directSum_le_of_range : |directSum d u v| ≤ 64 * (65536 * 258218740) :=
  abs_directSum_le (fun x y => abs_le.2 ⟨(hd x y).1, (hd x y).2.trans (by norm_num)⟩) u v

/-- R126: the coefficient over the range of R120. -/
theorem abs_coefficient_le_of_range : |coefficient d u v| ≤ 1008667 := by
  obtain ⟨haccLow, haccHigh⟩ := abs_le.1 (abs_directSum_le_of_range hd u v)
  obtain ⟨herrLow, herrHigh⟩ := abs_le.1 (abs_roundingError_le d u v)
  unfold roundingError at herrLow herrHigh
  exact abs_le.2 ⟨by omega, by omega⟩

end

/-- Settles O28: `abs_directSum_le_of_range` and `abs_coefficient_le_of_range`. -/
theorem transformNeverOverflows : Obligations.TransformNeverOverflows := by
  intro d hd u v
  have hacc := abs_directSum_le_of_range hd u v
  have hcoef := abs_coefficient_le_of_range hd u v
  rw [Int.abs_eq_natAbs] at hacc hcoef
  omega

/-! ## Linearity -/

theorem directSum_linear (a b : Int) (d₁ d₂ : Fin 8 → Fin 8 → Int) (u v : Fin 8) :
    directSum (fun x y => a * d₁ x y + b * d₂ x y) u v = a * directSum d₁ u v + b * directSum d₂ u v := by
  simp only [directSum_eq_sum, add_mul, mul_assoc, Finset.sum_add_distrib, Finset.mul_sum]

section
variable (a b : Int) (d₁ d₂ : Fin 8 → Fin 8 → Int) (u v : Fin 8)

/-- R132: how far the rounded coefficient is from being linear in the samples. -/
def linearityDefect : Int :=
  coefficient (fun x y => a * d₁ x y + b * d₂ x y) u v - a * coefficient d₁ u v - b * coefficient d₂ u v

/-- The accumulators being linear, only the three rounding errors are left. -/
theorem linearityDefect_eq_roundingErrors :
    2 ^ 30 * (2 * linearityDefect a b d₁ d₂ u v) =
      roundingError (fun x y => a * d₁ x y + b * d₂ x y) u v - a * roundingError d₁ u v - b * roundingError d₂ u v := by
  unfold linearityDefect roundingError
  rw [directSum_linear]
  ring

theorem abs_two_mul_linearityDefect_le : |2 * linearityDefect a b d₁ d₂ u v| ≤ |a| + |b| + 1 := by
  refine le_of_mul_le_mul_left ?_ (show (0 : Int) < 2 ^ 30 by norm_num)
  calc 2 ^ 30 * |2 * linearityDefect a b d₁ d₂ u v|
      = |roundingError (fun x y => a * d₁ x y + b * d₂ x y) u v - a * roundingError d₁ u v - b * roundingError d₂ u v| := by
        rw [← linearityDefect_eq_roundingErrors, abs_mul (2 ^ 30), abs_of_pos (show (0 : Int) < 2 ^ 30 by norm_num)]
    _ ≤ |roundingError (fun x y => a * d₁ x y + b * d₂ x y) u v| + |a * roundingError d₁ u v| + |b * roundingError d₂ u v| :=
        (abs_sub _ _).trans (add_le_add_left (abs_sub _ _) _)
    _ ≤ 2 ^ 30 + |a| * 2 ^ 30 + |b| * 2 ^ 30 := by
        rw [abs_mul, abs_mul]
        gcongr <;> exact abs_roundingError_le _ _ _
    _ = 2 ^ 30 * (|a| + |b| + 1) := by ring

end

/-- Settles O30: `directSum_linear` and the bound of the defect that its rounding leaves. -/
theorem transformIsLinearWithinRounding : Obligations.TransformIsLinearWithinRounding := by
  intro a b d₁ d₂ u v
  refine ⟨directSum_linear a b d₁ d₂ u v, ?_⟩
  have h := abs_two_mul_linearityDefect_le a b d₁ d₂ u v
  simp only [Int.abs_eq_natAbs, linearityDefect] at h
  omega

end Sys2Proof.Machine
end

section
/-! PROOFS. The butterfly datapath against the direct sum (R120, R123 to R128). -/

namespace Sys2Proof.Machine

/-! ## Mirrored angles and weights -/

/-- R128: mirroring the position keeps the angle and multiplies the sign by (−1)^k. -/
theorem angle_mirror : ∀ k n : Fin 8,
    (angle k (mirror n)).1 = (angle k n).1 ∧ (angle k (mirror n)).2 = (-1) ^ k.val * (angle k n).2 := by decide

theorem rom_mirror (u v x y : Fin 8) :
    rom u v (mirror x) y = (-1) ^ u.val * rom u v x y ∧ rom u v x (mirror y) = (-1) ^ v.val * rom u v x y := by
  obtain ⟨hux, hsx⟩ := angle_mirror u x
  obtain ⟨hvy, hsy⟩ := angle_mirror v y
  unfold rom
  rw [hux, hsx, hvy, hsy]
  constructor <;> ring

/-! ## The folds over exact integers -/

/-- A line of eight folded into four: each entry with its mirrored one, added for parity 0 and subtracted for parity 1 (R123, R124). -/
def foldLine (p : Bool) (f : Fin 8 → Int) (n : Fin 4) : Int :=
  f (lower n) + (if p then -1 else 1) * f (mirror (lower n))

/-- A block folded by rows, then by columns (R123, R124). -/
def foldBlock (d : Fin 8 → Fin 8 → Int) (p q : Bool) (x y : Fin 4) : Int :=
  foldLine q (fun y => foldLine p (fun x => d x y) x) y

/-- A weighted sum folds when its weights are mirrored with the same parity. -/
theorem sum_mul_eq_sum_foldLine {p : Bool} {w : Fin 8 → Int} (f : Fin 8 → Int)
    (hw : ∀ n : Fin 4, w (mirror (lower n)) = (if p then -1 else 1) * w (lower n)) :
    ∑ n, f n * w n = ∑ n : Fin 4, foldLine p f n * w (lower n) := by
  rw [sum_eq_mirrored_pairs]
  refine Finset.sum_congr rfl fun n _ => ?_
  rw [hw, foldLine]
  ring

/-- R128: the direct sum over the folded block. -/
theorem directSum_eq_sum_foldBlock (d : Fin 8 → Fin 8 → Int) (u v : Fin 8) :
    directSum d u v =
      ∑ x : Fin 4, ∑ y : Fin 4, foldBlock d (parity u) (parity v) x y * rom u v (lower x) (lower y) := by
  calc directSum d u v
      = ∑ y : Fin 8, ∑ x : Fin 8, d x y * rom u v x y := by rw [directSum_eq_sum, Finset.sum_comm]
    _ = ∑ y : Fin 8, ∑ x : Fin 4, foldLine (parity u) (fun x => d x y) x * rom u v (lower x) y :=
        Finset.sum_congr rfl fun y _ => sum_mul_eq_sum_foldLine (fun x => d x y) fun x => rom_mirror_row u v x y
    _ = ∑ x : Fin 4, ∑ y : Fin 8, foldLine (parity u) (fun x => d x y) x * rom u v (lower x) y := Finset.sum_comm
    _ = ∑ x : Fin 4, ∑ y : Fin 4, foldBlock d (parity u) (parity v) x y * rom u v (lower x) (lower y) :=
        Finset.sum_congr rfl fun x _ => sum_mul_eq_sum_foldLine _ fun y => rom_mirror_column u v (lower x) y

theorem abs_foldLine_le {f : Fin 8 → Int} {B : Int} (hf : ∀ n, |f n| ≤ B) (p : Bool) (n : Fin 4) : |foldLine p f n| ≤ 2 * B := by
  have hsign : |(if p then -1 else 1 : Int)| = 1 := by cases p <;> rfl
  calc |foldLine p f n| ≤ |f (lower n)| + |(if p then -1 else 1) * f (mirror (lower n))| := abs_add_le _ _
    _ = |f (lower n)| + |f (mirror (lower n))| := by rw [abs_mul, hsign, one_mul]
    _ ≤ B + B := add_le_add (hf _) (hf _)
    _ = 2 * B := (two_mul B).symm

theorem abs_foldBlock_le {d : Fin 8 → Fin 8 → Int} {B : Int} (hd : ∀ x y, |d x y| ≤ B) (p q : Bool) (x y : Fin 4) :
    |foldBlock d p q x y| ≤ 2 * (2 * B) :=
  abs_foldLine_le (fun y => abs_foldLine_le (fun x => hd x y) p x) q y

/-! ## The stages at their widths -/

/-- R120: 18 bits hold the level-shifted sample of a legal BITS. -/
theorem toInt_shiftStage (sample : Matrix Half) {bits : BitVec 5} (h16 : bits.toNat ≤ 16) (x y : Fin 8) :
    (shiftStage sample bits x y).toInt = shifted sample bits x y := by
  have hshift : ∀ b : BitVec 5, b.toNat ≤ 16 → ((1 : BitVec 18) <<< (b.toNat - 1)).toInt = levelShift b := by decide
  have hext := toInt_signExtend_of_le 18 16 (by norm_num) sample[idx x y]
  obtain ⟨hlow, hhigh⟩ := shifted_bounds sample h16 x y
  unfold shifted at *
  rw [shiftStage, toInt_sub_of_bounds _ _ (2 ^ 17) rfl] <;> rw [hext, hshift bits h16]
  · omega
  · omega

/-- R123, R124: a fold one bit wider than its operands is exact. -/
theorem toInt_fold {w : Nat} (p : Bool) (a b : BitVec w) :
    (if p then a.signExtend (w + 1) - b.signExtend (w + 1) else a.signExtend (w + 1) + b.signExtend (w + 1)).toInt =
      a.toInt + (if p then -1 else 1) * b.toInt := by
  have hB : (2 : Int) * 2 ^ w = 2 ^ (w + 1) := (pow_succ' 2 w).symm
  have hext (c : BitVec w) : (c.signExtend (w + 1)).toInt = c.toInt := toInt_signExtend_of_le _ _ w.le_succ c
  have ha := a.le_two_mul_toInt
  have ha' := a.two_mul_toInt_lt
  have hb := b.le_two_mul_toInt
  have hb' := b.two_mul_toInt_lt
  cases p with
  | false =>
    rw [if_neg Bool.false_ne_true, if_neg Bool.false_ne_true, one_mul, toInt_add_of_bounds _ _ _ hB] <;> rw [hext, hext] <;> omega
  | true =>
    rw [if_pos rfl, if_pos rfl, neg_one_mul, ← sub_eq_add_neg, toInt_sub_of_bounds _ _ _ hB] <;> rw [hext, hext] <;> omega

theorem toInt_colFold (d : Fin 8 → Fin 8 → BitVec 18) (p q : Bool) (x y : Fin 4) :
    (colFold d p q x y).toInt = foldBlock (fun x y => (d x y).toInt) p q x y := by
  have hrow (y : Fin 8) : (rowFold d p x y).toInt = foldLine p (fun x => (d x y).toInt) x := toInt_fold p _ _
  calc (colFold d p q x y).toInt = foldLine q (fun y => (rowFold d p x y).toInt) y := toInt_fold q _ _
    _ = foldBlock (fun x y => (d x y).toInt) p q x y := by simp only [hrow, foldBlock]

/-- R45: a ROM word of 32 bits holds its weight. -/
theorem toInt_romWord (u v x y : Fin 8) : (BitVec.ofInt 32 (rom u v x y)).toInt = rom u v x y := by
  obtain ⟨hlow, hhigh⟩ := abs_le.1 (abs_rom_le u v x y)
  exact BitVec.toInt_ofInt_eq_self (by norm_num) (by norm_num; omega) (by norm_num; omega)

/-- R125: 47 bits hold the product of a folded block within the range of R120. -/
theorem toInt_multiplier {d : Fin 8 → Fin 8 → BitVec 18} (hd : ∀ x y, |(d x y).toInt| ≤ 65536) (u v : Fin 8) (x y : Fin 4) :
    (multiplier d u v x y).toInt =
      foldBlock (fun x y => (d x y).toInt) (parity u) (parity v) x y * rom u v (lower x) (lower y) := by
  have hfold := abs_foldBlock_le hd (parity u) (parity v) x y
  have hprod := mul_le_mul hfold (abs_rom_le u v (lower x) (lower y)) (abs_nonneg _) (by norm_num)
  rw [← abs_mul, abs_le] at hprod
  have hleft := toInt_signExtend_of_le 47 20 (by norm_num) (colFold d (parity u) (parity v) x y)
  have hright := toInt_signExtend_of_le 47 32 (by norm_num) (BitVec.ofInt 32 (rom u v (lower x) (lower y)))
  rw [toInt_colFold] at hleft
  rw [toInt_romWord] at hright
  rw [multiplier, toInt_mul_of_bounds _ _ (2 ^ 46) rfl] <;> rw [hleft, hright]
  · omega
  · omega

/-- R127: two levels of 64-bit adders over four numbers whose sum fits are exact. -/
theorem toInt_add_four {f : Fin 4 → BitVec 64} {B : Int} (hB : 4 * B < 2 ^ 63) (hf : ∀ i, |(f i).toInt| ≤ B) :
    ((f 0 + f 1) + (f 2 + f 3)).toInt = ∑ i, (f i).toInt := by
  have h0 := abs_le.1 (hf 0)
  have h1 := abs_le.1 (hf 1)
  have h2 := abs_le.1 (hf 2)
  have h3 := abs_le.1 (hf 3)
  have h01 : (f 0 + f 1).toInt = (f 0).toInt + (f 1).toInt := toInt_add_of_bounds _ _ (2 ^ 63) rfl (by omega) (by omega)
  have h23 : (f 2 + f 3).toInt = (f 2).toInt + (f 3).toInt := toInt_add_of_bounds _ _ (2 ^ 63) rfl (by omega) (by omega)
  rw [toInt_add_of_bounds _ _ (2 ^ 63) rfl (by omega) (by omega), h01, h23, Fin.sum_univ_four]
  ring

theorem abs_toInt_le {w : Nat} (a : BitVec w) : |a.toInt| ≤ 2 ^ (w - 1) :=
  abs_le.2 ⟨a.le_toInt, a.toInt_lt.le⟩

/-- R127: the adder tree is the exact sum of the 16 products, whatever they are. -/
theorem toInt_adderTree (d : Fin 8 → Fin 8 → BitVec 18) (u v : Fin 8) :
    (adderTree d u v).toInt = ∑ x : Fin 4, ∑ y : Fin 4, (multiplier d u v x y).toInt := by
  have hext (x y : Fin 4) : ((multiplier d u v x y).signExtend 64).toInt = (multiplier d u v x y).toInt :=
    toInt_signExtend_of_le 64 47 (by norm_num) _
  have hprod (x y : Fin 4) : |(multiplier d u v x y).toInt| ≤ 2 ^ 46 := abs_toInt_le _
  have hrow (x : Fin 4) : (treeRow d u v x).toInt = ∑ y : Fin 4, (multiplier d u v x y).toInt := by
    rw [treeRow, toInt_add_four (f := fun y => (multiplier d u v x y).signExtend 64) (B := 2 ^ 46) (by norm_num)]
    · simp only [hext]
    · simpa only [hext] using hprod x
  have hrowBound (x : Fin 4) : |(treeRow d u v x).toInt| ≤ 4 * 2 ^ 46 := by
    rw [hrow]
    refine (Finset.abs_sum_le_sum_abs _ _).trans ((Finset.sum_le_sum fun y _ => hprod x y).trans ?_)
    simp
  rw [adderTree, toInt_add_four (f := treeRow d u v) (B := 4 * 2 ^ 46) (by norm_num) hrowBound]
  simp only [hrow]

/-- R128: the adder tree gives the accumulator of the direct sum. -/
theorem toInt_adderTree_shiftStage (sample : Matrix Half) {bits : BitVec 5} (h16 : bits.toNat ≤ 16) (u v : Fin 8) :
    (adderTree (shiftStage sample bits) u v).toInt = directSum (shifted sample bits) u v := by
  have hshift : (fun x y => (shiftStage sample bits x y).toInt) = shifted sample bits :=
    funext fun x => funext fun y => toInt_shiftStage sample h16 x y
  have hd (x y : Fin 8) : |(shiftStage sample bits x y).toInt| ≤ 65536 := by
    obtain ⟨hlow, hhigh⟩ := shifted_bounds sample h16 x y
    rw [toInt_shiftStage sample h16, abs_le]
    exact ⟨hlow, hhigh.trans (by norm_num)⟩
  rw [toInt_adderTree, directSum_eq_sum_foldBlock, ← hshift]
  exact Finset.sum_congr rfl fun x _ => Finset.sum_congr rfl fun y _ => toInt_multiplier hd u v x y

/-- Settles O27: `angle_mirror`, `rom_mirror`, and the exactness of every stage with the rounding unit after it. -/
theorem butterflyEqualsDirectSum : Obligations.ButterflyEqualsDirectSum := by
  refine ⟨angle_mirror, rom_mirror, fun sample bits _ h16 => ⟨toInt_adderTree_shiftStage sample h16, ?_⟩⟩
  simp only [butterflyDct, forwardDct, datapathCoefficient, coefficient, toInt_adderTree_shiftStage sample h16,
    roundingUnit_eq_roundHAZ]

end Sys2Proof.Machine
end

section
/-! PROOFS. The fixed-point transform against the real formula (R14, R122). -/

namespace Sys2Proof.Machine

/-- R45, R48: a weight by 2^30 is within 2^−31 of the basis product. -/
theorem abs_rom_div_sub_basis_le (u v x y : Fin 8) : |(rom u v x y : ℝ) / 2 ^ 30 - Formula.basis u v x y| ≤ 1 / 2 ^ 31 := by
  obtain ⟨-, -, herr⟩ := exactRomEntries
  have h := abs_le.1 (herr u v x y)
  exact abs_le.2 ⟨by linarith, by linarith⟩

/-- R122: the distance of the accumulator from the real formula is a sum over the weights' errors. -/
theorem directSum_div_sub_realDct (d : Fin 8 → Fin 8 → Int) (u v : Fin 8) :
    (directSum d u v : ℝ) / 2 ^ 30 - Formula.realDct d u v =
      ∑ x : Fin 8, ∑ y : Fin 8, (d x y : ℝ) * ((rom u v x y : ℝ) / 2 ^ 30 - Formula.basis u v x y) := by
  rw [directSum_eq_sum, Formula.realDct]
  push_cast
  simp only [Finset.sum_div, mul_sub, mul_div_assoc, Finset.sum_sub_distrib]

theorem abs_directSum_div_sub_realDct_le (d : Fin 8 → Fin 8 → Int) (u v : Fin 8) :
    |(directSum d u v : ℝ) / 2 ^ 30 - Formula.realDct d u v| ≤ (∑ x : Fin 8, ∑ y : Fin 8, |(d x y : ℝ)|) / 2 ^ 31 := by
  have hterm (x y : Fin 8) :
      |(d x y : ℝ) * ((rom u v x y : ℝ) / 2 ^ 30 - Formula.basis u v x y)| ≤ |(d x y : ℝ)| / 2 ^ 31 := by
    rw [abs_mul, ← mul_one_div |(d x y : ℝ)|]
    exact mul_le_mul_of_nonneg_left (abs_rom_div_sub_basis_le u v x y) (abs_nonneg _)
  rw [directSum_div_sub_realDct]
  simp only [Finset.sum_div]
  exact (Finset.abs_sum_le_sum_abs _ _).trans
    (Finset.sum_le_sum fun x _ => (Finset.abs_sum_le_sum_abs _ _).trans (Finset.sum_le_sum fun y _ => hterm x y))

/-- R121: the coefficient is within 1/2 of the accumulator by 2^30. -/
theorem abs_coefficient_sub_directSum_div_le (d : Fin 8 → Fin 8 → Int) (u v : Fin 8) :
    |(coefficient d u v : ℝ) - (directSum d u v : ℝ) / 2 ^ 30| ≤ 1 / 2 := by
  have h : |2 * (2 ^ 30 * (coefficient d u v : ℝ) - (directSum d u v : ℝ))| ≤ 2 ^ 30 := by
    exact_mod_cast abs_roundingError_le d u v
  obtain ⟨hlow, hhigh⟩ := abs_le.1 h
  exact abs_le.2 ⟨by linarith, by linarith⟩

/-- An integer within 1/2 of `a` is the nearest to any `r` within `D` of `a` that is farther than `D` from every half-integer. -/
theorem eq_round_of_far_from_half_integers {c : ℤ} {a r D : ℝ} (hc : |(c : ℝ) - a| ≤ 1 / 2) (ha : |a - r| ≤ D)
    (hfar : ∀ m : ℤ, D < |r - ((m : ℝ) + 1 / 2)|) : c = round r := by
  obtain ⟨hc1, hc2⟩ := abs_le.1 hc
  obtain ⟨ha1, ha2⟩ := abs_le.1 ha
  have hbelow : (c : ℝ) - 1 / 2 < r := by
    by_contra! hle
    have hm := hfar (c - 1)
    push_cast at hm
    rw [abs_of_nonpos (by linarith)] at hm
    linarith
  have habove : r < (c : ℝ) + 1 / 2 := by
    by_contra! hle
    have hm := hfar c
    rw [abs_of_nonneg (by linarith)] at hm
    linarith
  exact (round_eq_iff.2 ⟨hbelow.le, habove⟩).symm

theorem directSum_div_eq_realDct {u v : Fin 8} (hu : u = 0 ∨ u = 4) (hv : v = 0 ∨ v = 4) (d : Fin 8 → Fin 8 → Int) :
    (directSum d u v : ℝ) / 2 ^ 30 = Formula.realDct d u v := by
  obtain ⟨-, hexact, -⟩ := exactRomEntries
  have hterm (x y : Fin 8) : (rom u v x y : ℝ) / 2 ^ 30 - Formula.basis u v x y = 0 := by
    obtain ⟨-, hrom⟩ := hexact u v x y hu hv
    rw [hrom, mul_div_cancel_left₀ _ (by norm_num), sub_self]
  rw [← sub_eq_zero, directSum_div_sub_realDct]
  simp only [hterm, mul_zero, Finset.sum_const_zero]

/-- Settles O39: the weights' errors, the rounding's error, and the exact weights of the frequencies 0 and 4. -/
theorem fixedPointDistanceFromFormula : Obligations.FixedPointDistanceFromFormula := fun d u v =>
  ⟨abs_directSum_div_sub_realDct_le d u v,
    eq_round_of_far_from_half_integers (abs_coefficient_sub_directSum_div_le d u v) (abs_directSum_div_sub_realDct_le d u v),
    fun hu hv => directSum_div_eq_realDct hu hv d⟩

end Sys2Proof.Machine
end

section
/-! PROOFS. The command FDCT and what the outputs of the data commands depend on (R121, R130, R131, R133). -/

namespace Sys2Proof.Machine

/-! ## The data commands of shape 8 × 8 -/

theorem exec_fdct_eight (s : State) :
    exec (.fdct 8 8) s = .next (State.complete { s with coef := forwardDct s.sample s.bits }) := by
  rw [exec_fdct, shapeError_of_ok, finish_none]

theorem exec_quant_eight {s : State} (hdiv : ∀ k : Fin 64, 0 < (s.div[k]).toInt) :
    exec (.quant 8 8) s = .next s.quantized.complete := by
  rw [exec_quant, shapeError_of_ok, divisorError_eq_none hdiv, Option.or_none, finish_none]

theorem exec_fdctq_eight {s : State} (hdiv : ∀ k : Fin 64, 0 < (s.div[k]).toInt) :
    exec (.fdctq 8 8) s = .next (State.quantized { s with coef := forwardDct s.sample s.bits }).complete := by
  rw [exec_fdctq, shapeError_of_ok, divisorError_eq_none hdiv, Option.or_none, finish_none]

/-- R126: a COEF entry holds its coefficient, untruncated, for a legal BITS. -/
theorem toInt_forwardDct (sample : Matrix Half) {bits : BitVec 5} (h16 : bits.toNat ≤ 16) (u v : Fin 8) :
    ((forwardDct sample bits)[idx u v]).toInt = coefficient (shifted sample bits) u v := by
  obtain ⟨hlow, hhigh⟩ := abs_le.1 (abs_coefficient_le_of_range (shifted_bounds sample h16) u v)
  rw [forwardDct_get, row_idx, col_idx]
  exact BitVec.toInt_ofInt_eq_self (by norm_num) (by norm_num; omega) (by norm_num; omega)

/-- Settles O14: the completion of FDCT, and `toInt_forwardDct` over the sum of R121. -/
theorem fdctComputesTransform : Obligations.FdctComputesTransform := by
  intro s _ h16
  refine ⟨forwardDct s.sample s.bits, exec_fdct_eight s, fun u v => ?_⟩
  rw [toInt_forwardDct s.sample h16, coefficient, directSum_eq_sum]
  simp only [shifted, levelShift]

/-! ## The exact outputs -/

/-- The sign pattern σ of the frequencies 0 and 4 (R130). -/
def exactSign (u x : Fin 8) : Int := if u = 0 then 1 else (![1, -1, -1, 1, 1, -1, -1, 1] : Fin 8 → Int) x

theorem angle_sign_eq_exactSign {u : Fin 8} (hu : u = 0 ∨ u = 4) (x : Fin 8) : (angle u x).2 = exactSign u x := by
  rcases hu with rfl | rfl <;> revert x <;> decide

/-- R130: for the frequencies 0 and 4 the common weight 2^27 cancels against 2^30. -/
theorem coefficient_of_zero_or_four {u v : Fin 8} (hu : u = 0 ∨ u = 4) (hv : v = 0 ∨ v = 4) (d : Fin 8 → Fin 8 → Int) :
    coefficient d u v = roundHAZ (∑ x : Fin 8, ∑ y : Fin 8, exactSign u x * exactSign v y * d x y) 8 := by
  have hsum : directSum d u v = 2 ^ 27 * ∑ x : Fin 8, ∑ y : Fin 8, exactSign u x * exactSign v y * d x y := by
    simp only [directSum_eq_sum, Finset.mul_sum, rom_eq_of_zero_or_four hu hv, romSign, angle_sign_eq_exactSign hu,
      angle_sign_eq_exactSign hv]
    exact Finset.sum_congr rfl fun x _ => Finset.sum_congr rfl fun y _ => by ring
  rw [coefficient, hsum, show (2 : Int) ^ 30 = 2 ^ 27 * 8 by norm_num, roundHAZ_mul_mul (by norm_num)]

/-- Settles O31: the exact outputs of the transform; those at 0, 0 have no sign. -/
theorem dcAndExactOutputs : Obligations.DcAndExactOutputs := by
  intro s _ h16
  have hexact {u v : Fin 8} (hu : u = 0 ∨ u = 4) (hv : v = 0 ∨ v = 4) :
      ((forwardDct s.sample s.bits)[idx u v]).toInt =
        roundHAZ (∑ x : Fin 8, ∑ y : Fin 8, exactSign u x * exactSign v y * shifted s.sample s.bits x y) 8 := by
    rw [toInt_forwardDct s.sample h16, coefficient_of_zero_or_four hu hv]
  refine ⟨_, exec_fdct_eight s, ?_, fun u v hu hv => hexact hu hv⟩
  have hdc := hexact (u := 0) (v := 0) (.inl rfl) (.inl rfl)
  simp only [exactSign, if_true, one_mul] at hdc
  exact hdc

/-! ## The zero block -/

theorem coefficient_zero (u v : Fin 8) : coefficient (fun _ _ => 0) u v = 0 := by
  simp [coefficient, directSum_eq_sum, roundHAZ]

/-- Settles O32: every level-shifted sample is 0, so every coefficient is. -/
theorem constantShiftBlockGivesZero : Obligations.ConstantShiftBlockGivesZero := by
  intro s hs
  have hzero : shifted s.sample s.bits = fun _ _ => 0 :=
    funext fun x => funext fun y => sub_eq_zero.2 (hs (idx x y))
  refine ⟨_, exec_fdct_eight s, fun k => ?_⟩
  rw [State.complete_coef, forwardDct_get, hzero, coefficient_zero]
  rfl

/-! ## Operands -/

/-- Settles O24: each output of a completion is a function of the operands named. -/
theorem outputsDependOnOperandsOnly : Obligations.OutputsDependOnOperandsOnly := by
  intro s₁ s₂ t₁ t₂
  refine ⟨fun hsample hbits h₁ h₂ => ?_, fun hcoef hdiv hpos h₁ h₂ => ?_, fun hsample hbits hdiv hpos h₁ h₂ => ?_⟩
  · rw [exec_fdct_eight] at h₁ h₂
    cases h₁
    cases h₂
    simp [hsample, hbits]
  · rw [exec_quant_eight hpos] at h₁
    rw [exec_quant_eight (hdiv ▸ hpos)] at h₂
    cases h₁
    cases h₂
    simp [hcoef, hdiv]
  · rw [exec_fdctq_eight hpos] at h₁
    rw [exec_fdctq_eight (hdiv ▸ hpos)] at h₂
    cases h₁
    cases h₂
    simp [hsample, hbits, hdiv]

end Sys2Proof.Machine
end

section
/-! PROOFS. The quantizer: its lanes, its mask, its divisor check, and the preset divisors (R150 to R157, R174). -/

namespace Sys2Proof.Machine

/-! ## The rounded quotient by a positive divisor -/

section
variable {c q : Int} (hq : 0 < q)
include hq

/-- R152: the magnitude of the quotient is the unsigned division alone; the sign of a zero dividend does not matter. -/
theorem natAbs_roundHAZ : ((roundHAZ c q).natAbs : Int) = (2 * (c.natAbs : Int) + q) / (2 * q) := by
  have hnonneg : 0 ≤ (2 * (c.natAbs : Int) + q) / (2 * q) := Int.ediv_nonneg (by omega) (by omega)
  rw [roundHAZ, Int.natAbs_mul, Nat.cast_mul, Int.natAbs_of_nonneg hnonneg]
  rcases eq_or_ne c 0 with rfl | hc
  · rw [Int.sign_zero, Int.natAbs_zero, Nat.cast_zero, zero_mul]
    exact (Int.ediv_eq_zero_of_lt (by omega) (by omega)).symm
  · rw [Int.natAbs_sign_of_ne_zero hc, Nat.cast_one, one_mul]

/-- R154: zero exactly below half the divisor. -/
theorem roundHAZ_eq_zero_iff : roundHAZ c q = 0 ↔ 2 * (c.natAbs : Int) < q := by
  rw [← Int.natAbs_eq_zero, ← Int.natCast_eq_zero, natAbs_roundHAZ hq, Int.ediv_eq_iff_of_pos (by omega)]
  omega

/-- R154: from half the divisor up to the divisor the quotient is a unit. -/
theorem roundHAZ_eq_one_or_neg_one (hlow : q ≤ 2 * (c.natAbs : Int)) (hhigh : (c.natAbs : Int) < q) :
    roundHAZ c q = 1 ∨ roundHAZ c q = -1 := by
  have hunit : ((roundHAZ c q).natAbs : Int) = 1 := by
    rw [natAbs_roundHAZ hq, Int.ediv_eq_iff_of_pos (by omega)]
    omega
  omega

/-- R152: over the 32-bit range the magnitude 2^31 is reached only by −2^31 over 1. -/
theorem extreme_of_natAbs_roundHAZ_eq (hlow : -2 ^ 31 ≤ c) (hhigh : c < 2 ^ 31) (h : (roundHAZ c q).natAbs = 2 ^ 31) :
    roundHAZ c q = -2 ^ 31 ∧ c = -2 ^ 31 ∧ q = 1 := by
  have hnear := roundHAZ_near c hq
  rcases Int.natAbs_eq_iff.1 h with hr | hr <;> rw [hr] at hnear ⊢ <;> omega

end

/-! ## The lanes -/

/-- R152: the quotient always fits the 32 bits of a lane. -/
theorem toInt_quantLane {q : Half} (c : Word) (hq : 0 < q.toInt) : (quantLane c q).toInt = roundHAZ c.toInt q.toInt := by
  have hlow := c.le_toInt
  have hhigh := c.toInt_lt
  have hle := roundHAZ_natAbs_le c.toInt q.toInt hq
  have hextreme := extreme_of_natAbs_roundHAZ_eq hq hlow hhigh
  exact BitVec.toInt_ofInt_eq_self (by norm_num) (by norm_num; omega) (by norm_num; omega)

theorem quantLane_eq_zero_iff {q : Half} (c : Word) (hq : 0 < q.toInt) : quantLane c q = 0 ↔ 2 * (c.toInt.natAbs : Int) < q.toInt := by
  rw [← roundHAZ_eq_zero_iff hq, ← toInt_quantLane c hq]
  exact BitVec.toInt_inj.symm

/-- The entries of QOUT after QUANT. -/
theorem qout_quantized_complete (s : State) (k : Fin 64) : s.quantized.complete.qout[k] = quantLane s.coef[k] s.div[k] :=
  quantize_get s.coef s.div k

/-- Settles O17: the completion of QUANT, `toInt_quantLane`, and the bits of the mask. -/
theorem quantDividesAndMasks : Obligations.QuantDividesAndMasks := by
  intro s hdiv
  refine ⟨quantize s.coef s.div, nzmaskOf (quantize s.coef s.div), exec_quant_eight hdiv, fun k => ?_, fun k => ?_⟩
  · rw [quantize_get, toInt_quantLane _ (hdiv k), roundHAZ]
  · exact nzmaskOf_getLsb _ k

/-- Settles O33: a lane is the rounded quotient, and the rest are bounds of the operands and the laws of `RoundHAZ`. -/
theorem quantLaneIsExactRoundedQuotient : Obligations.QuantLaneIsExactRoundedQuotient := by
  intro s hdiv
  refine ⟨_, exec_quant_eight hdiv, fun k c q r hc hq hr => ?_⟩
  have hpos : 0 < q := hq ▸ hdiv k
  have hqhigh : q < 2 ^ 15 := hq ▸ (s.div[k]).toInt_lt
  have hclow : -2 ^ 31 ≤ c := hc ▸ (s.coef[k]).le_toInt
  have hchigh : c < 2 ^ 31 := hc ▸ (s.coef[k]).toInt_lt
  rw [qout_quantized_complete, toInt_quantLane _ (hdiv k), ← hc, ← hq] at hr
  subst hr
  exact ⟨rfl, rfl, by omega, by omega, roundHAZ_natAbs_le c q hpos, by omega, extreme_of_natAbs_roundHAZ_eq hpos hclow hchigh,
    roundHAZ_tie c hpos⟩

/-- Settles O34: the laws of `RoundHAZ` near zero, lane by lane. -/
theorem quantLaneZeroExactly : Obligations.QuantLaneZeroExactly := by
  intro s hdiv
  refine ⟨_, exec_quant_eight hdiv, fun k => ?_⟩
  rw [qout_quantized_complete, toInt_quantLane _ (hdiv k)]
  exact ⟨quantLane_eq_zero_iff _ (hdiv k), roundHAZ_eq_one_or_neg_one (hdiv k)⟩

/-- R153: the mask is empty when every entry is zero. -/
theorem nzmaskOf_eq_zero {m : Matrix Word} (hm : ∀ k : Fin 64, m[k] = 0) : nzmaskOf m = 0 := by
  refine BitVec.eq_of_getLsbD_eq fun i hi => ?_
  have hbit := nzmaskOf_getLsb m ⟨i, hi⟩
  rw [hm, decide_eq_false (not_not.2 rfl)] at hbit
  exact hbit.trans BitVec.getLsbD_zero.symm

/-- Settles O35: 0 is below half of every positive divisor, so every lane is 0, and with it the mask. -/
theorem zeroCoefficientsQuantizeToZero : Obligations.ZeroCoefficientsQuantizeToZero := by
  intro s hcoef hdiv
  have hzero (k : Fin 64) : s.quantized.complete.qout[k] = 0 := by
    rw [qout_quantized_complete, quantLane_eq_zero_iff _ (hdiv k), hcoef]
    exact hdiv k
  exact ⟨_, exec_quant_eight hdiv, hzero, nzmaskOf_eq_zero hzero⟩

/-! ## The divisors -/

/-- Settles O16: the shape passes, the scan stops at `k`, and both commands enter failure before any write. -/
theorem badDivisorFailsAtSmallestPosition : Obligations.BadDivisorFailsAtSmallestPosition := by
  intro s k hk hsmaller
  rw [exec_quant, exec_fdctq, shapeError_of_ok, divisorError_eq_some hk hsmaller, Option.none_or, finish_some, finish_some]
  exact ⟨rfl, rfl⟩

theorem exec_lddiv_zero (s : State) : exec (.lddiv 0) s = .next (State.complete { s with div := ramp }) := by
  rw [exec_lddiv, if_pos rfl, finish_none]

/-- R155: the ramp's entries, which are small and so positive as 16-bit integers. -/
theorem toInt_ramp (i j : Fin 8) : (ramp[idx i j]).toInt = 3 + 2 * ((i.val : Int) + (j.val : Int)) := by
  have hnat : (BitVec.ofNat 16 (3 + 2 * (i.val + j.val))).toNat = 3 + 2 * (i.val + j.val) := by
    rw [BitVec.toNat_ofNat]
    omega
  rw [ramp_get, row_idx, col_idx, BitVec.toInt_eq_toNat_of_lt (by omega), hnat]
  push_cast
  rfl

/-- Settles O20: LDDIV overwrites DIV by a constant, so a second one writes what stands there. -/
theorem lddivLoadsRamp : Obligations.LddivLoadsRamp := by
  intro s
  refine ⟨ramp, exec_lddiv_zero s, toInt_ramp, fun t ht => ?_⟩
  rw [exec_lddiv_zero] at ht
  cases ht
  exact exec_lddiv_zero _

end Sys2Proof.Machine
end

section
/-! PROOFS. Issue and completion of a command, the commands NOP, LDDIV and FDCTQ, and the progress of a busy engine (R108, R158, R170 to
R175). -/

namespace Sys2Proof.Machine

/-! ## Issue -/

/-- Settles O6: an idle engine accepts (`memWrite_cmd_idle`), and from then on it is busy, where no write changes these fields. -/
theorem idleCmdWriteIsAccepted : Obligations.IdleCmdWriteIsAccepted := by
  intro s w hb
  refine ⟨s.accept w, memWrite_cmd_idle w hb, rfl, fun off size v t ht => ?_⟩
  obtain ⟨-, -, -, rfl⟩ := memWrite_eq_next.1 ht
  obtain ⟨hsample, hdiv, hcoef, hbits, -, -, hpending, -⟩ := writeLoc_busy (locOf off) v (s.accept w) (State.accept_busy w s)
  exact ⟨hsample, hdiv, hcoef, hbits, hpending⟩

theorem memWrite_cmd_busy {s : State} (w : Word) (hb : s.busy = true) : memWrite 0x00C 4 w s = .next s.setOvr := by
  rw [memWrite_of_locOf (l := .cmd) w s rfl (by decide) rfl, writeLoc, State.issueCommand, if_pos hb]

/-- Settles O7. -/
theorem busyCmdWriteIsOverrun : Obligations.BusyCmdWriteIsOverrun := fun _ w hb => memWrite_cmd_busy w hb

/-! ## Completion -/

/-- R172: where the engine moves next and holds a word, the step is that word's completion. -/
theorem step_engine {s : State} {w : Word} (hn : s.nextTurn = .engine) (hb : s.busy = true) (hw : s.pending = some w) :
    step s = completeWord w s.popTurn := by
  rw [step_eq, hn]
  exact engineTurn_busy hb hw

theorem completeWord_of_decode {w : Word} {i : Instr} (h : decode w = .ok i) (s : State) : completeWord w s = exec i s := by
  rw [completeWord, h]

/-- Settles O8: the engine's step is the completion of the word, which decodes to the command. -/
theorem stepRunsDecodedCommand : Obligations.StepRunsDecodedCommand := by
  intro s w i hn hb hw hi
  rw [step_engine hn hb hw, completeWord_of_decode hi]
  rfl

/-- Settles O10: the host's `sw` is the acceptance, and the word accepted decodes to the command it encodes. -/
theorem hostIssuesThenEngineCompletes : Obligations.HostIssuesThenEngineCompletes := by
  intro s i rest hwf hb hturns hop
  refine ⟨_, step_sw hturns hop (memWrite_cmd_idle (encode i) hb), ?_⟩
  exact stepRunsDecodedCommand _ (encode i) i rfl rfl rfl (decodeOfEncode i hwf)

/-- R39, R42: only LDDIV of table 0 writes DIV. -/
theorem exec_keeps_div_or_lddiv {i : Instr} {s t : State} (h : exec i s = .next t) : t.div = s.div ∨ i = .lddiv 0 := by
  rcases exec_cases h with ⟨-, rfl⟩ | ⟨r, c, -, ⟨-, rfl⟩ | ⟨-, rfl⟩⟩ | ⟨r, c, -, ⟨e, -, rfl⟩ | ⟨-, rfl⟩⟩ |
    ⟨r, c, -, ⟨e, -, rfl⟩ | ⟨-, rfl⟩⟩ | ⟨tbl, rfl, ⟨-, rfl⟩ | ⟨rfl, -⟩⟩
  rotate_right
  · exact .inr rfl
  all_goals exact .inl rfl

/-- Settles O11: a command answers; failed or completed, it leaves the fields named alone, and DIV by `exec_keeps_div_or_lddiv`. -/
theorem everyCommandCompletes : Obligations.EveryCommandCompletes := by
  intro i s
  obtain ⟨t, ht⟩ := exec_answers i s
  have hdiv : t.div ≠ s.div → i = .lddiv 0 := (exec_keeps_div_or_lddiv ht).resolve_left
  rcases exec_fails_or_completes ht with ⟨e, op, rfl, -, -⟩ | ⟨d, c, q, m, rfl⟩
  · exact ⟨_, ht, rfl, rfl, rfl, rfl, rfl, rfl, rfl, rfl, rfl, fun _ => rfl, hdiv⟩
  · exact ⟨_, ht, rfl, rfl, rfl, rfl, rfl, rfl, rfl, rfl, rfl, id, hdiv⟩

/-! ## The commands -/

/-- Settles O13: NOP checks nothing and writes nothing before it completes. -/
theorem nopCompletes : Obligations.NopCompletes := fun s => (exec_nop s).trans (finish_none 0x00 id s)

/-- Settles O21: a table other than 0 is the one check LDDIV has. -/
theorem lddivReservedTableFails : Obligations.LddivReservedTableFails := by
  intro s tbl htbl
  rw [exec_lddiv, if_neg htbl, finish_some]
  rfl

/-- R121: a COEF entry as the rounded sum over the samples, for a legal BITS. -/
theorem toInt_forwardDct_eq_sum (sample : Matrix Half) {bits : BitVec 5} (h16 : bits.toNat ≤ 16) (u v : Fin 8) :
    ((forwardDct sample bits)[idx u v]).toInt =
      roundHAZ (∑ x : Fin 8, ∑ y : Fin 8, ((sample[idx x y]).toInt - 2 ^ (bits.toNat - 1)) * rom u v x y) (2 ^ 30) := by
  rw [toInt_forwardDct sample h16, coefficient, directSum_eq_sum]
  rfl

/-- Settles O18: the completion of FDCTQ, whose lanes divide the COEF entries that `toInt_forwardDct_eq_sum` gives. -/
theorem fdctqTransformsThenQuantizes : Obligations.FdctqTransformsThenQuantizes := by
  intro s _ h16 hdiv
  refine ⟨forwardDct s.sample s.bits, quantize (forwardDct s.sample s.bits) s.div, nzmaskOf (quantize (forwardDct s.sample s.bits) s.div),
    exec_fdctq_eight hdiv, toInt_forwardDct_eq_sum s.sample h16, fun u v => ?_, nzmaskOf_getLsb _⟩
  rw [quantize_get, toInt_quantLane _ (hdiv (idx u v)), toInt_forwardDct_eq_sum s.sample h16]

/-- Settles O19: QUANT after FDCT divides the COEF that FDCT wrote by the same DIV, and completing twice is completing once. -/
theorem fdctqEqualsFdctThenQuant : Obligations.FdctqEqualsFdctThenQuant := fun s hdiv =>
  ⟨_, _, exec_fdct_eight s,
    exec_quant_eight (s := State.complete { s with coef := forwardDct s.sample s.bits }) hdiv, exec_fdctq_eight hdiv⟩

/-! ## Defined accesses answer -/

theorem offsetOk_iff {off : Nat} : offsetOk off = true ↔ off % 4 = 0 ∧ off < 0x1000 := by
  simp [offsetOk]

theorem memWrite_of_offsetOk {off : Nat} (w : Word) (s : State) (ho : offsetOk off = true) :
    memWrite off 4 w s = .next (writeLoc (locOf off) w s) := by
  obtain ⟨h4, hin⟩ := offsetOk_iff.1 ho
  exact memWrite_aligned off w s h4 hin

theorem memRead_of_offsetOk {off : Nat} (s : State) (ho : offsetOk off = true) :
    memRead off 4 s = .next (readLoc (locOf off) s) := by
  obtain ⟨h4, hin⟩ := offsetOk_iff.1 ho
  exact memRead_aligned off s h4 hin

/-- R108: a host operation with a defined access, or a label of the program, answers. -/
theorem hostOp_answers {op : HostOp} {s : State} (h : op.ok s.hostProg = true) : ∃ t, hostOp op s = .next t := by
  cases op with
  | sw off imm => exact ⟨_, by rw [hostOp, memWrite_of_offsetOk _ _ h, andThen_next]⟩
  | swt off r => exact ⟨_, by rw [hostOp, memWrite_of_offsetOk _ _ h, andThen_next]⟩
  | lw r off => exact ⟨_, by rw [hostOp, memRead_of_offsetOk _ h, andThen_next]⟩
  | bnez r l =>
    obtain ⟨place, hplace⟩ := Option.isSome_iff_exists.1 h
    exact ⟨_, by rw [hostOp, hplace]⟩
  | andi r m imm | label l | halt => exact ⟨_, rfl⟩

/-- R70: a defined single access answers. -/
theorem busAccess_answers {a : Access} {s : State} (h : a.ok s.base) : ∃ t, busAccess a s = .next t := by
  cases a with
  | read addr size =>
    obtain ⟨hbase, rfl, ho⟩ := h
    exact ⟨_, by rw [busAccess, State.offsetOf, if_pos hbase, andThen_next, memRead_of_offsetOk _ ho, andThen_next]⟩
  | write addr size w =>
    obtain ⟨hbase, rfl, ho⟩ := h
    exact ⟨_, by rw [busAccess, State.offsetOf, if_pos hbase, andThen_next, memWrite_of_offsetOk _ _ ho]⟩

/-- R43: a busy engine holds a command. -/
theorem State.Inv.latched {s : State} (hs : s.Inv) (hb : s.busy = true) : ∃ w, s.pending = some w :=
  Option.isSome_iff_exists.1 (hs.busy_pending ▸ hb)

theorem engineTurn_answers {s : State} (hs : s.Inv) : ∃ t, engineTurn s = .next t := by
  cases hb : s.busy with
  | false => exact ⟨s, engineTurn_idle hb⟩
  | true =>
    obtain ⟨w, hw⟩ := hs.latched hb
    rw [engineTurn_busy hb hw]
    exact completeWord_answers w s

/-! ## Every step answers -/

theorem nextTurn_cons {s : State} {a : Turn} {rest : List Turn} (h : s.turns = a :: rest) : s.nextTurn = a := by
  rw [State.nextTurn, h]

/-- With no turn left, a busy engine moves (log 5). -/
theorem nextTurn_nil_busy {s : State} (h : s.turns = []) (hb : s.busy = true) : s.nextTurn = .engine := by
  rw [State.nextTurn, h, hb]
  rfl

/-- The next turn, from the list or not, is one whose access is defined. -/
theorem State.AccessesOk.nextTurn_ok {s : State} (hs : s.AccessesOk) : s.nextTurn.ok s.base := by
  cases hturns : s.turns with
  | cons a rest =>
    rw [nextTurn_cons hturns]
    exact hs.turns a (hturns ▸ List.mem_cons_self)
  | nil =>
    rw [State.nextTurn, hturns]
    cases s.busy <;> exact trivial

theorem hostTurn_answers {s : State} (h : ∀ op ∈ s.hostProg, op.ok s.hostProg = true) : ∃ t, hostTurn s = .next t := by
  cases hop : s.hostProg[s.hostPc]? with
  | none => exact ⟨s, by rw [hostTurn, hop]⟩
  | some op =>
    rw [hostTurn, hop]
    exact hostOp_answers (h op (List.mem_of_getElem? hop))

/-- R72, R190: with the invariant and defined accesses no step stops the machine. -/
theorem step_answers {s : State} (hs : s.Inv) (hok : s.AccessesOk) : ∃ t, step s = .next t := by
  have hturn := hok.nextTurn_ok
  rw [step_eq]
  cases hn : s.nextTurn with
  | engine => exact engineTurn_answers (hs.of_sameRegisters (sameRegisters_popTurn s))
  | host => exact hostTurn_answers (s := s.popTurn) hok.host
  | bus a =>
    rw [hn] at hturn
    exact busAccess_answers (s := s.popTurn) hturn
  | rst => exact ⟨_, rfl⟩

/-- A step takes a turn off the list and leaves the host's program and BASE alone, so what is left to come is still defined. -/
theorem State.AccessesOk.of_step {s t : State} (hs : s.AccessesOk) (h : step s = .next t) : t.AccessesOk := by
  obtain ⟨hprog, hturns, hinst⟩ := step_keeps_platform h
  have hbase : t.base = s.base := by rw [State.base, State.base, hinst]
  constructor
  · rw [hprog]
    exact hs.host
  · rw [hturns, hbase]
    exact fun a ha => hs.turns a (List.mem_of_mem_tail ha)

/-! ## A busy engine gets its turn -/

/-- `a` is busy with the command of `s`, on the same operands (R43). -/
structure SameCommand (s a : State) : Prop where
  busy : a.busy = true
  pending : a.pending = s.pending
  sample : a.sample = s.sample
  div : a.div = s.div
  coef : a.coef = s.coef
  bits : a.bits = s.bits

theorem SameCommand.refl {s : State} (hb : s.busy = true) : SameCommand s s := ⟨hb, rfl, rfl, rfl, rfl, rfl⟩

theorem SameCommand.trans {s t a : State} (h : SameCommand s t) (h' : SameCommand t a) : SameCommand s a :=
  ⟨h'.busy, h'.pending.trans h.pending, h'.sample.trans h.sample, h'.div.trans h.div, h'.coef.trans h.coef, h'.bits.trans h.bits⟩

theorem sameCommand_of_step {s t : State} (h : step s = .next t) (hb : s.busy = true) (hne : s.nextTurn ≠ .engine)
    (hnr : s.nextTurn ≠ .rst) : SameCommand s t := by
  obtain ⟨hsample, hdiv, hcoef, hbits, -, -, hpending, -, hbusy, -⟩ := operandsAreFixedWhileBusy s t h hb hne hnr
  exact ⟨hbusy, hpending, hsample, hdiv, hcoef, hbits⟩

/-- R172, log 5: every turn before the engine's leaves the command alone, and after the last of them the engine moves. -/
theorem busy_reaches_engine {s : State} (hs : s.Inv) (hok : s.AccessesOk) (hb : s.busy = true) (hr : ∀ a ∈ s.turns, a ≠ .rst) :
    ∃ n a, n ≤ s.turns.length ∧ runSteps n s = .next a ∧ SameCommand s a ∧ a.nextTurn = .engine := by
  induction hturns : s.turns generalizing s with
  | nil => exact ⟨0, s, le_rfl, rfl, .refl hb, nextTurn_nil_busy hturns hb⟩
  | cons turn rest ih =>
    by_cases hn : s.nextTurn = .engine
    · exact ⟨0, s, Nat.zero_le _, rfl, .refl hb, hn⟩
    have hnr : s.nextTurn ≠ .rst := nextTurn_cons hturns ▸ hr turn (hturns ▸ List.mem_cons_self)
    obtain ⟨t, ht⟩ := step_answers hs hok
    have hsame : SameCommand s t := sameCommand_of_step ht hb hn hnr
    have hrest : t.turns = rest := by
      obtain ⟨-, htail, -⟩ := step_keeps_platform ht
      rw [htail, hturns, List.tail_cons]
    have hr' : ∀ a ∈ t.turns, a ≠ .rst := fun a ha => hr a (hturns ▸ List.mem_cons_of_mem turn (hrest ▸ ha))
    obtain ⟨n, a, hle, hrun, hsame', hengine⟩ := ih (stepKeepsInvariant s t hs ht) (hok.of_step ht) hsame.busy hr' hrest
    refine ⟨n + 1, a, Nat.succ_le_succ hle, ?_, hsame.trans hsame', hengine⟩
    rw [runSteps, ht, andThen_next, hrun]

/-- Settles O53: the engine gets its turn with the command it holds (`busy_reaches_engine`), and its step is that word's completion. -/
theorem busyEngineCompletes : Obligations.BusyEngineCompletes := by
  intro s hs hok hb hr
  obtain ⟨w, hw⟩ := hs.latched hb
  obtain ⟨n, a, hle, hrun, hsame, hn⟩ := busy_reaches_engine hs hok hb hr
  obtain ⟨t, ht⟩ := completeWord_answers w a.popTurn
  obtain ⟨hidle, hdone, -⟩ := completeWord_flags ht
  have hwa : a.pending = some w := hsame.pending.trans hw
  exact ⟨n, w, a, t, hle, hrun, hw, hwa, hsame.sample, hsame.div, hsame.coef, hsame.bits, hn,
    (step_engine hn hsame.busy hwa).trans ht, ht, hidle, hdone⟩

end Sys2Proof.Machine
end

section
/-! PROOFS. The errors of a command and its failure entry, the machine that never stops, and a platform of several instances (R190 to
R205). -/

namespace Sys2Proof.Machine

/-! ## The machine never stops -/

/-- Settles O52: a step answers (`step_answers`), keeps the invariant, and leaves the accesses to come defined. -/
theorem machineNeverStops : Obligations.MachineNeverStops := by
  intro s hs hok
  obtain ⟨t, ht⟩ := step_answers hs hok
  exact ⟨t, ht, stepKeepsInvariant s t hs ht, hok.of_step ht⟩

/-! ## Failure entry -/

/-- Settles O9: the engine's step is the completion of the word, which decodes to nothing. -/
theorem stepFailsIllegalWord : Obligations.StepFailsIllegalWord := by
  intro s w hn hb hw hillegal
  rw [step_engine hn hb hw, completeWord_of_illegal hillegal]
  rfl

/-- Settles O12: every completion leaves the engine idle, and an idle engine accepts. -/
theorem completedEngineAcceptsNext : Obligations.CompletedEngineAcceptsNext := by
  intro s t w h
  have hidle : t.busy = false := by
    rcases h with ⟨v, hv⟩ | ⟨i, hi⟩
    · obtain ⟨hbusy, -⟩ := completeWord_flags hv
      exact hbusy
    · obtain ⟨u, hu, hbusy, -⟩ := everyCommandCompletes i s
      cases hu.symm.trans hi
      exact hbusy
  exact ⟨t.accept w, memWrite_cmd_idle w hidle, rfl, rfl, rfl⟩

/-- Settles O15: the shape is the first check of the three commands, so the divisors are not looked at. -/
theorem wrongShapeFails : Obligations.WrongShapeFails := by
  intro s r c hbad
  rw [exec_fdct, exec_quant, exec_fdctq, shapeError_of_bad hbad, Option.some_or, finish_some, finish_some, finish_some]
  exact ⟨rfl, rfl, rfl⟩

/-! ## The order of the checks -/

/-- The completion of a word ends where its command does. -/
theorem completeWord_eq_exec {w : Word} {i : Instr} {s t u : State} (h : completeWord w s = .next t) (hd : decode w = .ok i)
    (he : exec i s = .next u) : t = u := by
  rw [completeWord_of_decode hd, he] at h
  cases h
  rfl

/-- Settles O23: each clause by the rule of its check, and with no check failing the command completes, which writes no error. -/
theorem errorsAreReportedInOrder : Obligations.ErrorsAreReportedInOrder := by
  intro w s t h
  refine ⟨fun hillegal => ?_, fun r c hd hbad => ?_, fun hd k hk hsmaller => ?_, fun hd => ?_⟩
  · rw [completeWord_of_illegal hillegal] at h
    cases h
    exact ⟨rfl, rfl⟩
  · obtain ⟨hfdct, hquant, hfdctq⟩ := wrongShapeFails s r c hbad
    rcases hd with hd | hd | hd
    · rw [completeWord_eq_exec h hd hfdct]; exact ⟨rfl, rfl⟩
    · rw [completeWord_eq_exec h hd hquant]; exact ⟨rfl, rfl⟩
    · rw [completeWord_eq_exec h hd hfdctq]; exact ⟨rfl, rfl⟩
  · obtain ⟨hquant, hfdctq⟩ := badDivisorFailsAtSmallestPosition s k hk hsmaller
    have hpos : (BitVec.ofNat 6 k.val).toNat = k.val := Nat.mod_eq_of_lt k.isLt
    rcases hd with hd | hd
    · rw [completeWord_eq_exec h hd hquant]; exact ⟨rfl, hpos⟩
    · rw [completeWord_eq_exec h hd hfdctq]; exact ⟨rfl, hpos⟩
  · have hcompletes : ∃ d c q m, t = State.complete { s with div := d, coef := c, qout := q, nzmask := m } := by
      rcases hd with hd | hd | hd | ⟨hd | hd, hdiv⟩
      · exact ⟨_, _, _, _, completeWord_eq_exec h hd (nopCompletes s)⟩
      · exact ⟨_, _, _, _, completeWord_eq_exec h hd (exec_lddiv_zero s)⟩
      · exact ⟨_, _, _, _, completeWord_eq_exec h hd (exec_fdct_eight s)⟩
      · exact ⟨_, _, _, _, completeWord_eq_exec h hd (exec_quant_eight hdiv)⟩
      · exact ⟨_, _, _, _, completeWord_eq_exec h hd (exec_fdctq_eight hdiv)⟩
    obtain ⟨d, c, q, m, rfl⟩ := hcompletes
    exact ⟨rfl, rfl, rfl, rfl⟩

/-! ## A platform of several instances -/

theorem System.stepAt_of_none {p : System} {k : Nat} (h : p.instances[k]? = none) : p.stepAt k = .next p := by
  rw [System.stepAt, h]

theorem System.stepAt_of_some {p : System} {k : Nat} {s s' : State} (h : p.instances[k]? = some s) (hs : step s = .next s') :
    p.stepAt k = .next ⟨p.instances.set k s'⟩ := by
  rw [System.stepAt, h]
  exact congrArg (andThen · _) hs

/-- What a step of the platform that answers can have been: nothing, where no engine has the number `k`, or that engine's own step (R205). -/
theorem System.stepAt_cases {p q : System} {k : Nat} (h : p.stepAt k = .next q) :
    (p.instances[k]? = none ∧ q = p) ∨
    (∃ s s', p.instances[k]? = some s ∧ step s = .next s' ∧ q = ⟨p.instances.set k s'⟩) := by
  cases hk : p.instances[k]? with
  | none =>
    rw [System.stepAt_of_none hk] at h
    cases h
    exact .inl ⟨rfl, rfl⟩
  | some s =>
    rw [System.stepAt, hk] at h
    obtain ⟨s', hs, hq⟩ := andThen_eq_next.1 h
    cases hq
    exact .inr ⟨s, s', rfl, hs, rfl⟩

theorem System.length_stepAt {p q : System} {k : Nat} (h : p.stepAt k = .next q) : q.instances.length = p.instances.length := by
  rcases System.stepAt_cases h with ⟨-, rfl⟩ | ⟨s, s', -, -, rfl⟩
  · rfl
  · exact List.length_set

/-- R205: a step of engine `k` leaves the others as they were. -/
theorem System.stepAt_other {p q : System} {j k : Nat} (h : p.stepAt k = .next q) (hjk : j ≠ k) :
    q.instances[j]? = p.instances[j]? := by
  rcases System.stepAt_cases h with ⟨-, rfl⟩ | ⟨s, s', -, -, rfl⟩
  · rfl
  · exact List.getElem?_set_ne hjk.symm

/-- R205: the platform's step of engine `k` is that engine's own. -/
theorem System.stepAt_own {p q : System} {k : Nat} {s : State} (h : p.stepAt k = .next q) (hs : p.instances[k]? = some s) :
    ∃ s', step s = .next s' ∧ q.instances[k]? = some s' := by
  rcases System.stepAt_cases h with ⟨hnone, -⟩ | ⟨a, s', ha, hstep, rfl⟩
  · rw [hs] at hnone; cases hnone
  · cases hs.symm.trans ha
    exact ⟨s', hstep, by rw [List.getElem?_set_self', hs]; rfl⟩

/-- R205: the steps of two instances commute: each finds its own state untouched by the other. -/
theorem System.stepAt_comm {p q q₂ : System} {j k : Nat} (hjk : j ≠ k) (hk : p.stepAt k = .next q) (hj : p.stepAt j = .next q₂) :
    ∃ r, q.stepAt j = .next r ∧ q₂.stepAt k = .next r := by
  have hqj : q.instances[j]? = p.instances[j]? := System.stepAt_other hk hjk
  have hqk : q₂.instances[k]? = p.instances[k]? := System.stepAt_other hj hjk.symm
  rcases System.stepAt_cases hk with ⟨hnone, rfl⟩ | ⟨s, s', hs, hstep, rfl⟩
  · exact ⟨q₂, hj, System.stepAt_of_none (hqk.trans hnone)⟩
  rcases System.stepAt_cases hj with ⟨hnone, rfl⟩ | ⟨a, a', ha, hstep', rfl⟩
  · exact ⟨_, System.stepAt_of_none (hqj.trans hnone), hk⟩
  · refine ⟨_, System.stepAt_of_some (hqj.trans ha) hstep', ?_⟩
    rw [System.stepAt_of_some (hqk.trans hs) hstep, List.set_comm _ _ hjk]

/-- R205: every step of the platform keeps the numbers of its instances, since no step of an engine changes its number. -/
theorem System.Numbered.of_stepAt {p q : System} {k : Nat} (hp : p.Numbered) (h : p.stepAt k = .next q) : q.Numbered := by
  intro n a ha
  by_cases hn : n = k
  · subst hn
    rcases System.stepAt_cases h with ⟨-, rfl⟩ | ⟨s, -, hs, -, -⟩
    · exact hp n a ha
    · obtain ⟨s', hstep, hs'⟩ := System.stepAt_own h hs
      cases hs'.symm.trans ha
      obtain ⟨-, -, hinst⟩ := step_keeps_platform hstep
      exact hinst.trans (hp n s hs)
  · exact hp n a ((System.stepAt_other h hn).symm.trans ha)

theorem System.reset_numbered (n : Nat) : (System.reset n).Numbered := by
  intro k s hs
  rw [System.reset, List.getElem?_map] at hs
  obtain ⟨j, hj, rfl⟩ := Option.map_eq_some_iff.1 hs
  obtain ⟨hlt, rfl⟩ := List.getElem?_eq_some_iff.1 hj
  exact List.getElem_range hlt

/-- R24, R205: instances with their own numbers have windows that do not meet. -/
theorem System.Numbered.windows_disjoint {p : System} (hp : p.Numbered) {j k : Nat} (hjk : j ≠ k) {a b : State}
    (ha : p.instances[j]? = some a) (hb : p.instances[k]? = some b) :
    a.base + 0x1000 ≤ b.base ∨ b.base + 0x1000 ≤ a.base := by
  apply Machine.windows_disjoint
  rw [hp j a ha, hp k b hb]
  exact hjk

/-- Settles O58: the frame, own-step, commutation and numbering rules of `System.stepAt`, one for each clause. -/
theorem instancesShareNothing : Obligations.InstancesShareNothing :=
  ⟨System.reset_numbered, fun _ _ _ _ hjk h =>
    ⟨System.length_stepAt h, System.stepAt_other h hjk, fun _ => System.stepAt_own h, fun _ => System.stepAt_comm hjk h,
      fun hp => ⟨hp.of_stepAt h, fun _ _ => (hp.of_stepAt h).windows_disjoint hjk⟩⟩⟩

end Sys2Proof.Machine
end

section
/-! PROOFS. The state right after reset and the reset turn (R230 to R232). -/

namespace Sys2Proof.Machine

/-! ## The reset turn and what it takes from `State.reset` -/

/-- R230, R232: a step whose turn is the reset is the reset, busy or idle, from the state with the turns that are left. -/
theorem step_of_rst {s : State} (h : s.nextTurn = .rst) : step s = .next s.popTurn.rst := by
  rw [step_eq, h, takeTurn]

theorem view_cfg_rst (s : State) : s.rst.view .cfg = State.reset.view .cfg := by
  simp only [State.view, State.cfgWord, State.rst_bits]

theorem view_id_rst (s : State) : s.rst.view .id = State.reset.view .id := by
  simp only [State.view]

theorem irq_rst (s : State) : s.rst.irq = State.reset.irq := by
  simp only [State.irq, State.rst_ie, State.rst_done]

/-! ## The statements -/

/-- Settles O49: every row of R231 is a field of `State.reset`; DIV is the ramp, whose entries `toInt_ramp` gives. -/
theorem resetStateHasTheTable : Obligations.ResetStateHasTheTable :=
  ⟨rfl, rfl, rfl, rfl, rfl, rfl, rfl, rfl, rfl, rfl, rfl, rfl, rfl, rfl, toInt_ramp, rfl, rfl⟩

/-- Settles O48: the step is `State.rst`, which takes every field that R231 fixes from `State.reset`, and with them what CFG, ID and irq
read; so the table of `State.reset` (O49) is the table of the state it leaves. -/
theorem resetGivesTheTable : Obligations.ResetGivesTheTable := by
  intro s h
  refine ⟨s.popTurn.rst, step_of_rst h, ?_⟩
  rw [view_cfg_rst, view_id_rst, irq_rst]
  exact resetStateHasTheTable

/-- Settles O50: a reset establishes the invariant (`State.rst_inv`), and `State.reset` agrees with the state it leaves in every field the
invariant speaks of. -/
theorem resetMeetsInvariant : Obligations.ResetMeetsInvariant :=
  (State.rst_inv State.reset).of_same_fields rfl rfl rfl rfl rfl rfl rfl id

end Sys2Proof.Machine
end
